-- ==== Sys2Proof/Word.lean ====
section
/-! DEFINITION. The word types of the machine (spec/00_scope.md R6, R9; spec/10_state.md R20). -/

namespace Sys2Proof

/-- A Word: "a 16-bit unsigned integer"; all arithmetic on it is modulo 2^16 (R6, R9). -/
abbrev Word := BitVec 16

/-- A Byte: an unsigned integer in 0..255 (R9); console characters are Bytes (R33). -/
abbrev Byte := BitVec 8

/-- The index of a general register, "identified 0-7" (R6, R20). -/
abbrev Reg := Fin 8

end Sys2Proof
end

