-- ==== Sys2Proof/Config.lean ====
section
/-! DEFINITION. What the source fixes for every machine (spec/00_scope.md R6), the types of the open policies of
Table P (R7), and the free value of the model. The VALUES of the open parameters stand in Machine/Params.lean. -/

namespace Sys2Proof.Config

/-- `MEM_WORDS = 65536`, the number of memory cells (R6, R32). -/
def memWords : Nat := 65536

/-- `PC_START = 0x3000`, "PC = fixed start address 0x3000" (R6). -/
def pcStart : Word := 0x3000

/-- The two values of `RESERVED_OPCODE_POLICY` (Table P, R192). -/
inductive ReservedPolicy where
  | fault
  | noOp
  deriving DecidableEq, Repr

/-- The three values of `IMAGE_OVERFLOW` (Table P, R235). -/
inductive OverflowPolicy where
  | refuse
  | truncate
  | wrap
  deriving DecidableEq, Repr

/-- FREE VALUE: the Word that the `n`-th keyboard-data read with no character pending returns: "any 16-bit value
(a draw under no law)" (R52, U5, D13). It has no body, so that no proof can see it (log entry 13). -/
opaque freeWord : Nat → Word

end Sys2Proof.Config
end

