-- ==== Sys2Proof/Syntax.lean ====
section
/-! DEFINITION. The instructions as syntax: one constructor per row of spec/opcode_table.json, with the fields of
Table F (spec/30_encoding.md R81, R82). -/

namespace Sys2Proof

/-- The sixteen values of the opcode field (Table O, R88). `jsr` stands for JSR and JSRR, told apart by bit 11. -/
inductive Opcode where
  | br | add | ld | st | jsr | and | ldr | str | rti | not | ldi | sti | jmp | res | lea | trap
  deriving DecidableEq, Repr

/-- The six service routines of TRAP (Table T, R89). -/
inductive Routine where
  | getc | out | puts | inEcho | putsp | halt
  deriving DecidableEq, Repr

/-- The instructions. Bits that Table F marks `ignored` are no field of an instruction (R84), but for opcodes 8 and 13,
whose fault records the whole instruction Word (R190, R191). -/
inductive Instr where
  /-- BR, conditional branch (R130). -/
  | br (nzp : BitVec 3) (offset : BitVec 9)
  /-- ADD, register form (R120). -/
  | addReg (dr sr1 sr2 : Reg)
  /-- ADD, immediate form (R121). -/
  | addImm (dr sr1 : Reg) (imm5 : BitVec 5)
  /-- LD, load PC-relative (R140). -/
  | ld (dr : Reg) (offset : BitVec 9)
  /-- ST, store PC-relative (R144). -/
  | st (sr : Reg) (offset : BitVec 9)
  /-- JSR, subroutine call, PC-relative (R133). -/
  | jsr (offset : BitVec 11)
  /-- JSRR, subroutine call through a register (R134). -/
  | jsrr (base : Reg)
  /-- AND, register form (R122). -/
  | andReg (dr sr1 sr2 : Reg)
  /-- AND, immediate form (R123). -/
  | andImm (dr sr1 : Reg) (imm5 : BitVec 5)
  /-- LDR, load base plus offset (R142). -/
  | ldr (dr base : Reg) (offset : BitVec 6)
  /-- STR, store base plus offset (R146). -/
  | str (sr base : Reg) (offset : BitVec 6)
  /-- Opcode 8, reserved trap-return, unimplemented (R190). -/
  | rti (rest : BitVec 12)
  /-- NOT (R124). -/
  | not (dr sr : Reg)
  /-- LDI, load indirect (R141). -/
  | ldi (dr : Reg) (offset : BitVec 9)
  /-- STI, store indirect (R145). -/
  | sti (sr : Reg) (offset : BitVec 9)
  /-- JMP, and RET when `base` is 7 (R132). -/
  | jmp (base : Reg)
  /-- Opcode 13, reserved (R191). -/
  | res (rest : BitVec 12)
  /-- LEA, load effective address (R143). -/
  | lea (dr : Reg) (offset : BitVec 9)
  /-- TRAP with a code that names none of the six routines (R160, R169). -/
  | trap (code : BitVec 8)
  /-- TRAP with `TRAP_GETC`, read-character (R163). -/
  | getc
  /-- TRAP with `TRAP_OUT`, write-character (R164). -/
  | out
  /-- TRAP with `TRAP_PUTS`, write-string (R165). -/
  | puts
  /-- TRAP with `TRAP_IN`, read-character-with-echo (R166). -/
  | in_
  /-- TRAP with `TRAP_PUTSP`, write-packed-string (R167). -/
  | putsp
  /-- TRAP with `TRAP_HALT`, halt (R168). -/
  | halt
  deriving DecidableEq, Repr

end Sys2Proof
end

