-- ==== Sys2Proof/Machine/Params.lean ====
section
/-! DEFINITION. The open parameters of Table P (spec/00_scope.md R7) with their stated defaults: a reader with better
evidence for a value changes it here, in one place. No other definition of the machine holds a literal where a parameter
stands; `Instr.rowMatch` (Decode.lean), which no step reads, copies the numbers of spec/opcode_table.json to hold the
decoder against them. -/

namespace Sys2Proof.Config

/-- `OPCODE_MAP` (Table O, R88, D1): the opcode of each number from 0 to 15, each opcode once. The decoder and the encoder
both read this one table. PRESUMED (log entry 1): 1, 8 and 13 are the source's, the other thirteen are the spec's general
knowledge. -/
def opcodeMap : Vector Opcode 16 :=
  #v[.br, .add, .ld, .st, .jsr, .and, .ldr, .str, .rti, .not, .ldi, .sti, .jmp, .res, .lea, .trap]

/-- The opcode that a value of `instr[15:12]` selects (R88): its entry in `OPCODE_MAP`. -/
def opcodeOf (n : BitVec 4) : Opcode := opcodeMap[n.toFin]

/-- The number of an opcode (R88): its place in `OPCODE_MAP`. -/
def opcodeNumber (o : Opcode) : BitVec 4 := BitVec.ofNat 4 (opcodeMap.toList.idxOf o)

/-- `TRAP_GETC` to `TRAP_HALT` (Table T, R89, D2). PRESUMED (log entry 2). -/
def trapCode : Routine → BitVec 8
  | .getc => 0x20
  | .out => 0x21
  | .puts => 0x22
  | .inEcho => 0x23
  | .putsp => 0x24
  | .halt => 0x25

/-- The routine that a trap code selects; `none` for an unknown trap code (R89, R169). -/
def trapRoutine (code : BitVec 8) : Option Routine :=
  [Routine.getc, .out, .puts, .inEcho, .putsp, .halt].find? fun r => trapCode r == code

/-- `KBSR_ADDR` (R60, D3). PRESUMED (log entry 3). -/
def kbsrAddr : Word := 0xFE00

/-- `KBDR_ADDR` (R60, D3). PRESUMED (log entry 3). -/
def kbdrAddr : Word := 0xFE02

/-- `KBSR_READY`, a nonzero Word (R51, D4). PRESUMED (log entry 4). -/
def kbsrReady : Word := 0x8000

/-- `KBDR_ENCODE`: the character code in bits [7:0] (R52, C6, D5). DESIGN CHOICE of the spec (log entry 5). -/
def kbdrEncode (c : Byte) : Word := c.zeroExtend 16

/-- `COND_NEG_MASK` (R25, D6). PRESUMED (log entry 6). -/
def condNegMask : BitVec 3 := 0b100

/-- `COND_ZERO_MASK` (R6): the source's "condition bits `010` (ZERO)". -/
def condZeroMask : BitVec 3 := 0b010

/-- `COND_POS_MASK` (R25, D6). PRESUMED (log entry 6). -/
def condPosMask : BitVec 3 := 0b001

/-- `RESERVED_OPCODE_POLICY` (R192, C5, D7): the spec picks the fault (log entry 7). -/
def reservedOpcodePolicy : ReservedPolicy := .fault

/-- `TRAP_INPUT_SETS_COND` (R28, C8, D15): false (log entry 15). -/
def trapInputSetsCond : Bool := false

/-- `HALT_NOTICE` (R168, D19): "HALT" and a line feed. PRESUMED (log entry 19). -/
def haltNotice : List Byte := [0x48, 0x41, 0x4C, 0x54, 0x0A]

/-- `IMAGE_OVERFLOW` (R235, D22): refuse (log entry 22). -/
def imageOverflow : OverflowPolicy := .refuse

end Sys2Proof.Config
end

