-- ==== Sys2Proof/WellFormed.lean ====
section
/-! DEFINITION. Which terms of `Instr` stand for a Word. The fields' types already hold every bound of Table F
(R82: "all eight values are legal in every register field"; R84: no encoding is illegal on account of ignored bits), so
one check is left: the generic TRAP row stands for the codes that name no routine (R89, R160). -/

namespace Sys2Proof

/-- A term of `Instr` is well-formed iff some Word decodes to it. -/
def Instr.wellFormed : Instr → Bool
  | .br _ _ => true
  | .addReg _ _ _ => true
  | .addImm _ _ _ => true
  | .ld _ _ => true
  | .st _ _ => true
  | .jsr _ => true
  | .jsrr _ => true
  | .andReg _ _ _ => true
  | .andImm _ _ _ => true
  | .ldr _ _ _ => true
  | .str _ _ _ => true
  | .rti _ => true
  | .not _ _ => true
  | .ldi _ _ => true
  | .sti _ _ => true
  | .jmp _ => true
  | .res _ => true
  | .lea _ _ => true
  | .trap code => (Config.trapRoutine code).isNone
  | .getc => true
  | .out => true
  | .puts => true
  | .in_ => true
  | .putsp => true
  | .halt => true

end Sys2Proof
end

