-- ==== Sys2Proof/Decode.lean ====
section
/-! DEFINITION. The decoder (spec/30_encoding.md R90), total on every Word, and the encoder written from Table F
(R81, R82). No Word is rejected: "every one of the 65,536 Words decodes to exactly one of the outcomes", and a fault is
raised by the executor of a reserved opcode or an unknown trap code (R90). -/

namespace Sys2Proof

/-- `w[lo+n-1:lo]`, a bit field of `n` bits (R8). -/
abbrev field (w : Word) (lo n : Nat) : BitVec n := w.extractLsb' lo n

/-- A 3-bit register field at bits `lo+2` to `lo` (R82). -/
def regField (w : Word) (lo : Nat) : Reg := (field w lo 3).toFin

/-- The 3 bits that name a register (R82). -/
def regBits (r : Reg) : BitVec 3 := BitVec.ofFin r

/-- The instruction of a TRAP Word with `trapvect8 = code` (R89, R160). -/
def decodeTrap (code : BitVec 8) : Instr :=
  match Config.trapRoutine code with
  | some .getc => .getc
  | some .out => .out
  | some .puts => .puts
  | some .inEcho => .in_
  | some .putsp => .putsp
  | some .halt => .halt
  | none => .trap code

/-- The decoder (R90). -/
def decode (w : Word) : Instr :=
  match Config.opcodeOf (field w 12 4) with
  | .br => .br (field w 9 3) (field w 0 9)
  | .add =>
    if field w 5 1 = 0 then .addReg (regField w 9) (regField w 6) (regField w 0)
    else .addImm (regField w 9) (regField w 6) (field w 0 5)
  | .ld => .ld (regField w 9) (field w 0 9)
  | .st => .st (regField w 9) (field w 0 9)
  | .jsr => if field w 11 1 = 1 then .jsr (field w 0 11) else .jsrr (regField w 6)
  | .and =>
    if field w 5 1 = 0 then .andReg (regField w 9) (regField w 6) (regField w 0)
    else .andImm (regField w 9) (regField w 6) (field w 0 5)
  | .ldr => .ldr (regField w 9) (regField w 6) (field w 0 6)
  | .str => .str (regField w 9) (regField w 6) (field w 0 6)
  | .rti => .rti (field w 0 12)
  | .not => .not (regField w 9) (regField w 6)
  | .ldi => .ldi (regField w 9) (field w 0 9)
  | .sti => .sti (regField w 9) (field w 0 9)
  | .jmp => .jmp (regField w 6)
  | .res => .res (field w 0 12)
  | .lea => .lea (regField w 9) (field w 0 9)
  | .trap => decodeTrap (field w 0 8)

/-- The instruction read from an instruction whose bits are `w`, numbered as spec/opcode_table.json numbers them, of
which the table gives `nbits`. Every instruction is one 16-bit Word (R80). -/
def decodeTableWord (nbits w : Nat) : Option Instr :=
  if nbits ≤ 16 then some (decode (BitVec.ofNat 16 (w % 2 ^ nbits))) else none

/-- The Word with the field `f` at bits `lo` and up, and zeros elsewhere (R8). -/
abbrev bitsAt {n : Nat} (lo : Nat) (f : BitVec n) : Word := f.setWidth 16 <<< lo

/-- The opcode field `instr[15:12]` (R88). -/
def opBits (o : Opcode) : Word := bitsAt 12 (Config.opcodeNumber o)

/-- The Word of a TRAP with the conventional zeros in bits [11:8] (R84, Table A). -/
def encodeTrap (code : BitVec 8) : Word := opBits .trap ||| bitsAt 0 code

/-- The Word of an instruction, by Table F (R81), with the conventional fill of ignored bits: ones in `instr[5:0]` of
NOT, zeros everywhere else (R84). PRESUMED as a fill, without effect on execution (log entry 10). -/
def encode : Instr → Word
  | .br nzp off => opBits .br ||| bitsAt 9 nzp ||| bitsAt 0 off
  | .addReg dr sr1 sr2 => opBits .add ||| bitsAt 9 (regBits dr) ||| bitsAt 6 (regBits sr1) ||| bitsAt 0 (regBits sr2)
  | .addImm dr sr1 imm =>
    opBits .add ||| bitsAt 9 (regBits dr) ||| bitsAt 6 (regBits sr1) ||| bitsAt 5 1#1 ||| bitsAt 0 imm
  | .ld dr off => opBits .ld ||| bitsAt 9 (regBits dr) ||| bitsAt 0 off
  | .st sr off => opBits .st ||| bitsAt 9 (regBits sr) ||| bitsAt 0 off
  | .jsr off => opBits .jsr ||| bitsAt 11 1#1 ||| bitsAt 0 off
  | .jsrr base => opBits .jsr ||| bitsAt 6 (regBits base)
  | .andReg dr sr1 sr2 => opBits .and ||| bitsAt 9 (regBits dr) ||| bitsAt 6 (regBits sr1) ||| bitsAt 0 (regBits sr2)
  | .andImm dr sr1 imm =>
    opBits .and ||| bitsAt 9 (regBits dr) ||| bitsAt 6 (regBits sr1) ||| bitsAt 5 1#1 ||| bitsAt 0 imm
  | .ldr dr base off => opBits .ldr ||| bitsAt 9 (regBits dr) ||| bitsAt 6 (regBits base) ||| bitsAt 0 off
  | .str sr base off => opBits .str ||| bitsAt 9 (regBits sr) ||| bitsAt 6 (regBits base) ||| bitsAt 0 off
  | .rti rest => opBits .rti ||| bitsAt 0 rest
  | .not dr sr => opBits .not ||| bitsAt 9 (regBits dr) ||| bitsAt 6 (regBits sr) ||| bitsAt 0 0b111111#6
  | .ldi dr off => opBits .ldi ||| bitsAt 9 (regBits dr) ||| bitsAt 0 off
  | .sti sr off => opBits .sti ||| bitsAt 9 (regBits sr) ||| bitsAt 0 off
  | .jmp base => opBits .jmp ||| bitsAt 6 (regBits base)
  | .res rest => opBits .res ||| bitsAt 0 rest
  | .lea dr off => opBits .lea ||| bitsAt 9 (regBits dr) ||| bitsAt 0 off
  | .trap code => encodeTrap code
  | .getc => encodeTrap (Config.trapCode .getc)
  | .out => encodeTrap (Config.trapCode .out)
  | .puts => encodeTrap (Config.trapCode .puts)
  | .in_ => encodeTrap (Config.trapCode .inEcho)
  | .putsp => encodeTrap (Config.trapCode .putsp)
  | .halt => encodeTrap (Config.trapCode .halt)

/-- The mask of the instruction's row in spec/opcode_table.json: the bits that select it. -/
def Instr.rowMask : Instr → Word
  | .br _ _ => 0xF000
  | .addReg _ _ _ => 0xF020
  | .addImm _ _ _ => 0xF020
  | .ld _ _ => 0xF000
  | .st _ _ => 0xF000
  | .jsr _ => 0xF800
  | .jsrr _ => 0xF800
  | .andReg _ _ _ => 0xF020
  | .andImm _ _ _ => 0xF020
  | .ldr _ _ _ => 0xF000
  | .str _ _ _ => 0xF000
  | .rti _ => 0xF000
  | .not _ _ => 0xF000
  | .ldi _ _ => 0xF000
  | .sti _ _ => 0xF000
  | .jmp _ => 0xF000
  | .res _ => 0xF000
  | .lea _ _ => 0xF000
  | .trap _ => 0xF000
  | .getc => 0xF0FF
  | .out => 0xF0FF
  | .puts => 0xF0FF
  | .in_ => 0xF0FF
  | .putsp => 0xF0FF
  | .halt => 0xF0FF

/-- The match of the instruction's row in spec/opcode_table.json: the value of those bits, as that file writes it (the
opcode numbers and trap codes in it are the PRESUMED defaults of log entries 1 and 2). Read by statements only. -/
def Instr.rowMatch : Instr → Word
  | .br _ _ => 0x0000
  | .addReg _ _ _ => 0x1000
  | .addImm _ _ _ => 0x1020
  | .ld _ _ => 0x2000
  | .st _ _ => 0x3000
  | .jsr _ => 0x4800
  | .jsrr _ => 0x4000
  | .andReg _ _ _ => 0x5000
  | .andImm _ _ _ => 0x5020
  | .ldr _ _ _ => 0x6000
  | .str _ _ _ => 0x7000
  | .rti _ => 0x8000
  | .not _ _ => 0x9000
  | .ldi _ _ => 0xA000
  | .sti _ _ => 0xB000
  | .jmp _ => 0xC000
  | .res _ => 0xD000
  | .lea _ _ => 0xE000
  | .trap _ => 0xF000
  | .getc => 0xF020
  | .out => 0xF021
  | .puts => 0xF022
  | .in_ => 0xF023
  | .putsp => 0xF024
  | .halt => 0xF025

/-- The bits that some rule of the instruction reads: those that select it and those of its fields. The others are the
bits Table F marks `ignored` (R81, R84). -/
def Instr.usedBits : Instr → Word
  | .br _ _ => 0xFFFF
  | .addReg _ _ _ => 0xFFE7
  | .addImm _ _ _ => 0xFFFF
  | .ld _ _ => 0xFFFF
  | .st _ _ => 0xFFFF
  | .jsr _ => 0xFFFF
  | .jsrr _ => 0xF9C0
  | .andReg _ _ _ => 0xFFE7
  | .andImm _ _ _ => 0xFFFF
  | .ldr _ _ _ => 0xFFFF
  | .str _ _ _ => 0xFFFF
  | .rti _ => 0xF000
  | .not _ _ => 0xFFC0
  | .ldi _ _ => 0xFFFF
  | .sti _ _ => 0xFFFF
  | .jmp _ => 0xF1C0
  | .res _ => 0xF000
  | .lea _ _ => 0xFFFF
  | .trap _ => 0xF0FF
  | .getc => 0xF0FF
  | .out => 0xF0FF
  | .puts => 0xF0FF
  | .in_ => 0xF0FF
  | .putsp => 0xF0FF
  | .halt => 0xF0FF

end Sys2Proof
end

