-- ==== Sys2Proof/Machine/State.lean ====
section
/-! DEFINITION. Everything the spec gives the machine (spec/10_state.md R20 to R35), as plain data, and the machine right
after reset (R35, R230). -/

namespace Sys2Proof.Machine

/-- The condition register's three values: "exactly one of NEGATIVE, ZERO, POSITIVE at all times" (R25, R26). Their
one-hot masks are `Cond.mask` (Machine/Flags.lean). -/
inductive Cond where
  | negative
  | zero
  | positive
  deriving DecidableEq, Repr

/-- The two fault causes with the values they record (Table X, R201): the offending Word or trap code, and the address
the instruction was fetched from. -/
inductive FaultCause where
  | illegalOpcode (instr addr : Word)
  | illegalTrap (code : BitVec 8) (addr : Word)
  deriving DecidableEq, Repr

/-- The run state (R30). HALTED, FAULTED and STOPPED are terminal. -/
inductive RunState where
  | running
  | halted
  | faulted (cause : FaultCause)
  | stopped
  deriving DecidableEq, Repr

/-- The two instructions that may wait for console input (R113, R162). -/
inductive Wait where
  | getc
  | inEcho
  deriving DecidableEq, Repr

/-- What the environment does at one instruction boundary (or during a wait): the Bytes that arrive at the keyboard, and
whether the host's stop request is raised (R14, R206, U16, U17). -/
structure EnvMove where
  keys : List Byte
  stop : Bool
  deriving DecidableEq, Repr

/-- `MEM`: the cells that do not hold the reset value, each with its word address (R32). The cell is the 16-bit Word,
the spec's smallest addressable unit (R57). Canonical form: `Memory.wf` (log entry 26). -/
abbrev Memory := List (Nat × Word)

/-- What an unlisted address holds: the reset contents, "Memory zero-filled" (R35, R230). -/
def Memory.unlisted : Word := 0

/-- The canonical form: addresses strictly rising, inside the address space, and no entry equal to what an unlisted
address holds. Equal memories are then equal lists. -/
abbrev Memory.wf (m : Memory) : Prop :=
  m.Pairwise (fun a b => a.1 < b.1) ∧ ∀ c ∈ m, c.1 < Config.memWords ∧ c.2 ≠ Memory.unlisted

/-- The machine's state. -/
structure State where
  /-- The general registers `x[0]` to `x[7]` (R20). -/
  x : Vector Word 8
  /-- The program counter (R23). -/
  pc : Word
  /-- The condition register (R25). -/
  cond : Cond
  /-- The run state (R30). -/
  run : RunState
  /-- The memory, the two device addresses' backing cells included (R32, R34). -/
  mem : Memory
  /-- The console input queue, oldest Byte first (R33). -/
  kbdQueue : List Byte
  /-- The Bytes written to the console so far, oldest first (R33, R170). -/
  out : List Byte
  /-- The instruction in progress that waits for a character, if any (R113, R162; log entry 20). -/
  wait : Option Wait
  /-- MODEL's own: the environment's moves at the coming boundaries, the next one first; when the list has run out
  nothing more happens (R14, U16, U17; log entry 14). -/
  env : List EnvMove
  /-- MODEL's own: how many free Words have been drawn (R52; log entry 13). -/
  draws : Nat
  deriving DecidableEq, Repr

/-- Reasons for which a step of the core has no successor state. The spec's own faults (R201) are NO such stop: they are
states with `run = FAULTED` (R203). -/
inductive Fault where
  /-- Raised by PUTS and PUTSP when a string scan has not ended within `scanBudget` reads: the "stuck" of U9 and D18.
  Safe: it stops where the spec has no successor state either; and no state reaches it (Laws/Scan.lean,
  `putsScan_ends` and `putspScan_ends`; log entry 18). -/
  | scanWithoutEnd
  deriving DecidableEq, Repr

/-- Reasons for which an instruction or an image is given no meaning. -/
inductive Refusal where
  /-- An instruction the model has no meaning for yet; raised by no arm of `exec`. Safe. -/
  | notModelled (mnemonic : String)
  /-- Raised by `loadImage` on a stream of fewer than two bytes (R237, D23). Safe: no launch state is given. -/
  | imageWithoutOrigin
  /-- Raised by `loadImage` on a stream of odd length (R237, D23). Safe: no launch state is given. -/
  | imageOddLength
  /-- Raised by `loadImage` on an image that passes address 0xFFFF, under `IMAGE_OVERFLOW = refuse` (R235, D22). Safe: no
  launch state is given. -/
  | imagePastTop
  deriving DecidableEq, Repr

/-- What a meaning, a step and a load answer. -/
abbrev Result := Host.Outcome State Fault Refusal

/-- The machine right after reset (R35, R230). `kbdQueue` and `env` are launch inputs, taken empty (log entry 14);
`draws` is the model's own counter (log entry 13). -/
def State.reset : State where
  x := Vector.replicate 8 0
  pc := Config.pcStart
  cond := .zero
  run := .running
  mem := []
  kbdQueue := []
  out := []
  wait := none
  env := []
  draws := 0

end Sys2Proof.Machine
end

