-- ==== Sys2Proof/Machine/Flags.lean ====
section
/-! DEFINITION. The condition register (spec/10_state.md R25, R27). -/

namespace Sys2Proof.Machine

/-- The 3-bit one-hot value of the condition register, which BR tests against `instr[11:9]` (R25, D6). -/
def Cond.mask : Cond → BitVec 3
  | .negative => Config.condNegMask
  | .zero => Config.condZeroMask
  | .positive => Config.condPosMask

/-- The condition that `setcc` gives a Word (R27). -/
def condOf (v : Word) : Cond :=
  if v = 0 then .zero else if v.msb then .negative else .positive

/-- `setcc(v)` (R27). -/
def State.setcc (s : State) (v : Word) : State :=
  { s with cond := condOf v }

/-- The branch condition of BR: `(instr[11:9] & cond) != 0` (R130). -/
def State.branchTaken (s : State) (nzp : BitVec 3) : Bool :=
  nzp &&& s.cond.mask != 0

end Sys2Proof.Machine
end

