-- ==== Sys2Proof/Machine/Ops.lean ====
section
/-! DEFINITION. The named operations over registers, memory and console (spec/00_scope.md R11, R14; spec/20_memory.md
R50 to R53), the trap entry (R160) and the taking of a fault (R203). -/

namespace Sys2Proof.Machine

/-! ## Registers (R11, R20) -/

/-- `x[r]`. No register is hardwired (R20). -/
def State.readReg (s : State) (r : Reg) : Word := s.x[r]

/-- `x[r] <- v`. -/
def State.writeReg (s : State) (r : Reg) (v : Word) : State :=
  { s with x := s.x.set r v }

/-- `pc <- target`. -/
def State.setPc (s : State) (target : Word) : State :=
  { s with pc := target }

/-- `x[DR] <- v; setcc(x[DR])`: the result of every flag-setting instruction (R27, R28). -/
def State.writeResult (s : State) (dr : Reg) (v : Word) : State :=
  (s.writeReg dr v).setcc v

/-! ## Memory cells (R32, R53) -/

/-- `MEM[a]` by cell number. -/
def Memory.read : Memory → Nat → Word
  | [], _ => Memory.unlisted
  | (k, v) :: rest, a => if k = a then v else Memory.read rest a

/-- The cells other than `a`. -/
def Memory.clear (m : Memory) (a : Nat) : Memory :=
  m.filter fun c => c.1 != a

/-- Lists the cell `(a, v)` in its place. -/
def Memory.place : Memory → Nat → Word → Memory
  | [], a, v => [(a, v)]
  | (k, w) :: rest, a, v => if a < k then (a, v) :: (k, w) :: rest else (k, w) :: Memory.place rest a v

/-- `MEM[a] <- v` by cell number, keeping the canonical form. -/
def Memory.write (m : Memory) (a : Nat) (v : Word) : Memory :=
  if v = Memory.unlisted then m.clear a else (m.clear a).place a v

/-- `MEM[a]`: the backing storage cell at an address (R11). -/
def State.cell (s : State) (a : Word) : Word := s.mem.read a.toNat

/-- `MEM[a] <- v`. -/
def State.setCell (s : State) (a v : Word) : State :=
  { s with mem := s.mem.write a.toNat v }

/-! ## The console transactions (R14) -/

/-- `ConsoleKeyAvailable()`; it changes nothing. -/
def State.consoleKeyAvailable (s : State) : Bool := !s.kbdQueue.isEmpty

/-- `ConsoleTakeChar()`, enabled only when the queue is not empty; it removes the oldest Byte. -/
def State.consoleTakeChar (s : State) : Option (Byte × State) :=
  match s.kbdQueue with
  | [] => none
  | c :: rest => some (c, { s with kbdQueue := rest })

/-- `ConsoleWriteChar(b)` for each Byte of a list in order (R14, R168). -/
def State.consoleWrite (s : State) (bs : List Byte) : State :=
  { s with out := s.out ++ bs }

/-- A draw of any Word under no law (R52, U5): the next free value. -/
def State.drawWord (s : State) : Word × State :=
  (Config.freeWord s.draws, { s with draws := s.draws + 1 })

/-! ## The memory primitives (R50 to R53) -/

/-- The keyboard-status read (R51): a live poll that changes nothing. -/
def State.readStatus (s : State) : Word :=
  if s.consoleKeyAvailable then Config.kbsrReady else 0

/-- The keyboard-data read (R52): the head of the queue, consumed; any Word when no key is available. -/
def State.readData (s : State) : Word × State :=
  match s.consoleTakeChar with
  | some (c, s') => (Config.kbdrEncode c, s')
  | none => s.drawWord

/-- `MemRead(addr, 1)` (R50): the Word read and the state after the read. -/
def State.memRead (s : State) (addr : Word) : Word × State :=
  if addr = Config.kbsrAddr then (s.readStatus, s)
  else if addr = Config.kbdrAddr then s.readData
  else (s.cell addr, s)

/-- `MemWrite(addr, 1, v)` (R53): a plain store at every address, the device addresses included. -/
def State.memWrite (s : State) (addr v : Word) : State := s.setCell addr v

/-! ## Trap entry and faults -/

/-- The entry of every TRAP: `x[7] <- pc` and nothing else (R160, R210). There is no return from it: a routine returns by
itself, and opcode 8 is reserved (R211). -/
def State.trapEntry (s : State) : State := s.writeReg 7 s.pc

/-- `raise F(info)`: `run <- FAULTED(F(info))`, and nothing else changes (R203). There is no return from it: "only reset
leaves it". -/
def State.raise (s : State) (cause : FaultCause) : State :=
  { s with run := .faulted cause }

/-- The address the instruction in execution was fetched from, `pc - 1` (R12). -/
def State.instrAddr (s : State) : Word := s.pc - 1

/-- `raise IllegalOpcode(instr, pc - 1)` for a reserved opcode, under the policy of R192. -/
def State.reservedOpcode (s : State) (instr : Word) : State :=
  match Config.reservedOpcodePolicy with
  | .fault => s.raise (.illegalOpcode instr s.instrAddr)
  | .noOp => s

end Sys2Proof.Machine
end

