-- ==== Sys2Proof/Machine/Operands.lean ====
section
/-! DEFINITION. Sign and zero extension (spec/00_scope.md R10; spec/30_encoding.md R83), the Bytes of a Word, and the four
ways an effective address is formed (spec/43_load_store.md R147). -/

namespace Sys2Proof.Machine

/-- `sext_16(f)` (R10, R83). -/
def sext16 {n : Nat} (f : BitVec n) : Word := f.signExtend 16

/-- `zext_16(f)` (R10). -/
def zext16 {n : Nat} (f : BitVec n) : Word := f.zeroExtend 16

/-- `w[7:0]`, the low Byte. -/
def lowByte (w : Word) : Byte := w.extractLsb' 0 8

/-- `w[15:8]`, the high Byte. -/
def highByte (w : Word) : Byte := w.extractLsb' 8 8

/-- The PC-relative address `pc + sext_16(offset)`, with the incremented `pc` (R12, R147, R133). -/
def State.pcRelative {n : Nat} (s : State) (offset : BitVec n) : Word := s.pc + sext16 offset

/-- The base-plus-offset address `x[BaseR] + sext_16(offset6)` (R147). -/
def State.baseOffset (s : State) (base : Reg) (offset : BitVec 6) : Word := s.readReg base + sext16 offset

/-- The indirect address `MemRead(pc + sext_16(PCoffset9), 1)` and the state after the pointer read (R147). -/
def State.indirect (s : State) (offset : BitVec 9) : Word × State := s.memRead (s.pcRelative offset)

end Sys2Proof.Machine
end

