-- ==== Sys2Proof/Machine/Control.lean ====
section
/-! DEFINITION. BR, JMP, JSR, JSRR (spec/42_control.md R130 to R135). None writes `cond` (R28). -/

namespace Sys2Proof.Machine

/-- BR: `if (instr[11:9] & cond) != 0 then pc <- pc + sext_16(PCoffset9)` (R130). -/
def execBr (nzp : BitVec 3) (offset : BitVec 9) (s : State) : Result :=
  .next (if s.branchTaken nzp then s.setPc (s.pcRelative offset) else s)

/-- JMP: `pc <- x[BaseR]` (R132). -/
def execJmp (base : Reg) (s : State) : Result :=
  .next (s.setPc (s.readReg base))

/-- `x[7] <- pc`, the link of a subroutine call (R133, R134). -/
def State.link (s : State) : State := s.writeReg 7 s.pc

/-- JSR: `x[7] <- pc; pc <- pc + sext_16(PCoffset11)` (R133). -/
def execJsr (offset : BitVec 11) (s : State) : Result :=
  .next (s.link.setPc (s.pcRelative offset))

/-- JSRR: `x[7] <- pc; pc <- x[BaseR]`, the base register read AFTER the link write (R134, G11; log entry 25). -/
def execJsrr (base : Reg) (s : State) : Result :=
  .next (s.link.setPc (s.link.readReg base))

end Sys2Proof.Machine
end

