-- ==== Sys2Proof/Machine/LoadStore.lean ====
section
/-! DEFINITION. LD, LDI, LDR, LEA, ST, STI, STR (spec/43_load_store.md R140 to R147). Every read goes through `memRead`, in
the order of R56; every store is a plain store (R53). -/

namespace Sys2Proof.Machine

/-- `x[DR] <- MemRead(ea, 1); setcc(x[DR])`. -/
def State.load (s : State) (dr : Reg) (ea : Word) : State :=
  let (w, s') := s.memRead ea
  s'.writeResult dr w

/-- LD (R140). -/
def execLd (dr : Reg) (offset : BitVec 9) (s : State) : Result :=
  .next (s.load dr (s.pcRelative offset))

/-- LDI: `a <- MemRead(pc + sext_16(PCoffset9), 1); x[DR] <- MemRead(a, 1); setcc(x[DR])` (R141). -/
def execLdi (dr : Reg) (offset : BitVec 9) (s : State) : Result :=
  let (a, s') := s.indirect offset
  .next (s'.load dr a)

/-- LDR (R142): the base is read before the destination is written. -/
def execLdr (dr base : Reg) (offset : BitVec 6) (s : State) : Result :=
  .next (s.load dr (s.baseOffset base offset))

/-- LEA: `x[DR] <- pc + sext_16(PCoffset9); setcc(x[DR])`, without a memory access (R143). -/
def execLea (dr : Reg) (offset : BitVec 9) (s : State) : Result :=
  .next (s.writeResult dr (s.pcRelative offset))

/-- ST (R144). -/
def execSt (sr : Reg) (offset : BitVec 9) (s : State) : Result :=
  .next (s.memWrite (s.pcRelative offset) (s.readReg sr))

/-- STI: `a <- MemRead(pc + sext_16(PCoffset9), 1); MemWrite(a, 1, x[SR])` (R145). -/
def execSti (sr : Reg) (offset : BitVec 9) (s : State) : Result :=
  let (a, s') := s.indirect offset
  .next (s'.memWrite a (s'.readReg sr))

/-- STR (R146). -/
def execStr (sr base : Reg) (offset : BitVec 6) (s : State) : Result :=
  .next (s.memWrite (s.baseOffset base offset) (s.readReg sr))

end Sys2Proof.Machine
end

