-- ==== Sys2Proof/Machine/Operate.lean ====
section
/-! DEFINITION. ADD, AND, NOT (spec/41_operate.md R120 to R125). Every source is read before the destination is written. -/

namespace Sys2Proof.Machine

/-- ADD, register form: `x[DR] <- x[SR1] + x[SR2]; setcc(x[DR])` (R120). -/
def execAddReg (dr sr1 sr2 : Reg) (s : State) : Result :=
  .next (s.writeResult dr (s.readReg sr1 + s.readReg sr2))

/-- ADD, immediate form: `x[DR] <- x[SR1] + sext_16(imm5); setcc(x[DR])` (R121). -/
def execAddImm (dr sr1 : Reg) (imm5 : BitVec 5) (s : State) : Result :=
  .next (s.writeResult dr (s.readReg sr1 + sext16 imm5))

/-- AND, register form: `x[DR] <- x[SR1] & x[SR2]; setcc(x[DR])` (R122). -/
def execAndReg (dr sr1 sr2 : Reg) (s : State) : Result :=
  .next (s.writeResult dr (s.readReg sr1 &&& s.readReg sr2))

/-- AND, immediate form: `x[DR] <- x[SR1] & sext_16(imm5); setcc(x[DR])` (R123). -/
def execAndImm (dr sr1 : Reg) (imm5 : BitVec 5) (s : State) : Result :=
  .next (s.writeResult dr (s.readReg sr1 &&& sext16 imm5))

/-- NOT: `x[DR] <- ~x[SR]; setcc(x[DR])` (R124). -/
def execNot (dr sr : Reg) (s : State) : Result :=
  .next (s.writeResult dr (~~~ s.readReg sr))

end Sys2Proof.Machine
end

