-- ==== Sys2Proof/Machine/Trap.lean ====
section
/-! DEFINITION. TRAP and the six service routines (spec/44_trap.md R160 to R171), and the reserved opcodes
(spec/45_reserved.md R190 to R192). -/

namespace Sys2Proof.Machine

/-! ## Console input: GETC and IN (R162, R163, R166) -/

/-- `if TRAP_INPUT_SETS_COND then setcc(x[0])` (R163, R166). -/
def State.inputSetcc (s : State) (v : Word) : State :=
  if Config.trapInputSetsCond then s.setcc v else s

/-- The rest of GETC or IN once `WaitChar` has returned `c`: IN echoes it; `x[0] <- zext_16(c)` (R163, R166). -/
def State.finishInput (s : State) (w : Wait) (c : Byte) : State :=
  let s := match w with
    | .getc => s
    | .inEcho => s.consoleWrite [c]
  { (s.writeReg 0 (zext16 c)).inputSetcc (zext16 c) with wait := none }

/-- `c <- WaitChar()` and what follows: at once when a character is pending, else the instruction holds (R162). -/
def State.inputChar (s : State) (w : Wait) : State :=
  match s.consoleTakeChar with
  | some (c, s') => s'.finishInput w c
  | none => { s with wait := some w }

/-! ## Strings: PUTS and PUTSP (R165, R167) -/

/-- The loop of PUTS from address `a`, at most `n` reads; `none` when they do not end it (R165). -/
def putsScan : Nat → Word → State → Option State
  | 0, _, _ => none
  | n + 1, a, s =>
    let (w, s') := s.memRead a
    if w = 0 then some s' else putsScan n (a + 1) (s'.consoleWrite [lowByte w])

/-- The loop of PUTSP from address `a`, at most `n` reads: low Byte first, to the first zero Byte (R167). -/
def putspScan : Nat → Word → State → Option State
  | 0, _, _ => none
  | n + 1, a, s =>
    let (w, s') := s.memRead a
    if lowByte w = 0 then some s'
    else if highByte w = 0 then some (s'.consoleWrite [lowByte w])
    else putspScan n (a + 1) (s'.consoleWrite [lowByte w, highByte w])

/-- Reads within which every scan ends: each pass over the 65,536 addresses reads `KBSR_ADDR`, which reads 0 and ends the
scan once the queue is empty (R51), and `KBDR_ADDR`, which takes one Byte off the queue (R52); log entry 18. -/
def State.scanBudget (s : State) : Nat := (s.kbdQueue.length + 1) * Config.memWords

/-- The answer of a scan; `none` is the "stuck" of U9. -/
def scanResult : Option State → Result
  | some s => .next s
  | none => .fault .scanWithoutEnd

/-! ## The routines, after `x[7] <- pc` (R163 to R169) -/

/-- GETC (R163). -/
def routineGetc (s : State) : Result := .next (s.inputChar .getc)

/-- OUT: `ConsoleWriteChar(x[0][7:0])` (R164). -/
def routineOut (s : State) : Result := .next (s.consoleWrite [lowByte (s.readReg 0)])

/-- PUTS (R165). -/
def routinePuts (s : State) : Result := scanResult (putsScan s.scanBudget (s.readReg 0) s)

/-- IN (R166). -/
def routineIn (s : State) : Result := .next (s.inputChar .inEcho)

/-- PUTSP (R167). -/
def routinePutsp (s : State) : Result := scanResult (putspScan s.scanBudget (s.readReg 0) s)

/-- HALT: the notice, then `run <- HALTED` (R168). -/
def routineHalt (s : State) : Result := .next { s.consoleWrite Config.haltNotice with run := .halted }

/-- `routine(trapvect8)` (R160); an unknown code raises `IllegalTrap(trapvect8, pc - 1)` (R169). -/
def trapRoutineOf (code : BitVec 8) (s : State) : Result :=
  match Config.trapRoutine code with
  | some .getc => routineGetc s
  | some .out => routineOut s
  | some .puts => routinePuts s
  | some .inEcho => routineIn s
  | some .putsp => routinePutsp s
  | some .halt => routineHalt s
  | none => .next (s.raise (.illegalTrap code s.instrAddr))

/-! ## The meanings -/

/-- TRAP: `x[7] <- pc; routine(trapvect8)` (R160). The decoder gives it the unknown codes only (log entry 31). -/
def execTrap (code : BitVec 8) (s : State) : Result := trapRoutineOf code s.trapEntry

/-- GETC (R160, R163). -/
def execGetc (s : State) : Result := routineGetc s.trapEntry

/-- OUT (R160, R164). -/
def execOut (s : State) : Result := routineOut s.trapEntry

/-- PUTS (R160, R165). -/
def execPuts (s : State) : Result := routinePuts s.trapEntry

/-- IN (R160, R166). -/
def execIn (s : State) : Result := routineIn s.trapEntry

/-- PUTSP (R160, R167). -/
def execPutsp (s : State) : Result := routinePutsp s.trapEntry

/-- HALT (R160, R168). -/
def execHalt (s : State) : Result := routineHalt s.trapEntry

/-! ## The reserved opcodes -/

/-- Opcode 8: `raise IllegalOpcode(instr, pc - 1)` (R190). -/
def execRti (rest : BitVec 12) (s : State) : Result :=
  .next (s.reservedOpcode (encode (.rti rest)))

/-- Opcode 13: `raise IllegalOpcode(instr, pc - 1)` (R191). -/
def execRes (rest : BitVec 12) (s : State) : Result :=
  .next (s.reservedOpcode (encode (.res rest)))

end Sys2Proof.Machine
end

