-- ==== Sys2Proof/Machine/Dispatch.lean ====
section
/-! DEFINITION. `exec`: one arm per constructor of `Instr` (Table O, spec/30_encoding.md R88). The state is the one after the
fetch: `pc` is already incremented (spec/00_scope.md R12). -/

namespace Sys2Proof.Machine

def exec (i : Instr) (s : State) : Host.Outcome State Fault Refusal :=
  match i with
  | .br nzp offset => Sys2Proof.Machine.execBr nzp offset s
  | .addReg dr sr1 sr2 => Sys2Proof.Machine.execAddReg dr sr1 sr2 s
  | .addImm dr sr1 imm5 => Sys2Proof.Machine.execAddImm dr sr1 imm5 s
  | .ld dr offset => Sys2Proof.Machine.execLd dr offset s
  | .st sr offset => Sys2Proof.Machine.execSt sr offset s
  | .jsr offset => Sys2Proof.Machine.execJsr offset s
  | .jsrr base => Sys2Proof.Machine.execJsrr base s
  | .andReg dr sr1 sr2 => Sys2Proof.Machine.execAndReg dr sr1 sr2 s
  | .andImm dr sr1 imm5 => Sys2Proof.Machine.execAndImm dr sr1 imm5 s
  | .ldr dr base offset => Sys2Proof.Machine.execLdr dr base offset s
  | .str sr base offset => Sys2Proof.Machine.execStr sr base offset s
  | .rti rest => Sys2Proof.Machine.execRti rest s
  | .not dr sr => Sys2Proof.Machine.execNot dr sr s
  | .ldi dr offset => Sys2Proof.Machine.execLdi dr offset s
  | .sti sr offset => Sys2Proof.Machine.execSti sr offset s
  | .jmp base => Sys2Proof.Machine.execJmp base s
  | .res rest => Sys2Proof.Machine.execRes rest s
  | .lea dr offset => Sys2Proof.Machine.execLea dr offset s
  | .trap code => Sys2Proof.Machine.execTrap code s
  | .getc => Sys2Proof.Machine.execGetc s
  | .out => Sys2Proof.Machine.execOut s
  | .puts => Sys2Proof.Machine.execPuts s
  | .in_ => Sys2Proof.Machine.execIn s
  | .putsp => Sys2Proof.Machine.execPutsp s
  | .halt => Sys2Proof.Machine.execHalt s

end Sys2Proof.Machine
end

