-- ==== Sys2Proof/Machine/Cycle.lean ====
section
/-! DEFINITION. What the step does around `exec` (spec/40_execution_cycle.md R110 to R113; spec/60_exceptions.md R206): the
environment's move at a boundary, the fetch, the end by a stop request, the resumption of a waiting instruction. -/

namespace Sys2Proof.Machine

/-- The environment's move at this boundary (R14, D14): the Bytes of the next entry of `env` join the queue. -/
def State.deliver (s : State) : State :=
  match s.env with
  | [] => s
  | e :: rest => { s with kbdQueue := s.kbdQueue ++ e.keys, env := rest }

/-- Whether the host's stop request is raised at this boundary (R206). -/
def State.stopRequested (s : State) : Bool :=
  match s.env with
  | [] => false
  | e :: _ => e.stop

/-- `run <- STOPPED` (R206): no register or memory cell changes; an instruction that waited has ended. -/
def State.stopCore (s : State) : State := { s with run := .stopped, wait := none }

/-- `instr <- MemRead(pc, 1); pc <- pc + 1` (R110): the Word and the state the instruction executes in. -/
def State.fetch (s : State) : Word × State :=
  let (w, s') := s.memRead s.pc
  (w, s'.setPc (s'.pc + 1))

/-- A waiting GETC or IN at a boundary: it completes if a character has arrived, else it holds on (R162, R113). -/
def State.resume (s : State) (w : Wait) : State := s.inputChar w

/-- One step of the core in RUNNING: the environment moves, then a stop request ends the run (R206), or a waiting
instruction goes on (R162), or the next instruction is fetched, decoded and executed (R110). -/
def runningStep (s : State) : Result :=
  if s.stopRequested then .next s.deliver.stopCore
  else
    match s.wait with
    | some w => .next (s.deliver.resume w)
    | none => exec (decode s.deliver.fetch.1) s.deliver.fetch.2

/-- "In a terminal state the core takes no step and no state changes" (R111): the state is answered as it is, so that
the end of a run stays observable (R112; log entry 24). -/
def terminalStep (s : State) : Result := .next s

/-- The environment's moves without a stop request at this boundary. -/
def State.envWithoutStop (s : State) : List EnvMove :=
  match s.env with
  | [] => []
  | e :: rest => { e with stop := false } :: rest

/-- The state in which the very next `step` fetches at `pc` and executes: RUNNING, nothing in progress, no stop request
at this boundary, and `pc` no device address, from which no chosen Word can be fetched (R66; log entry 29). -/
def State.readyToFetch (s : State) : State :=
  { s with
    run := .running
    wait := none
    env := s.envWithoutStop
    pc := if s.pc = Config.kbsrAddr ∨ s.pc = Config.kbdrAddr then Config.pcStart else s.pc }

end Sys2Proof.Machine
end

