-- ==== Sys2Proof/Machine/Step.lean ====
section
/-! DEFINITION. One step of the core (spec/40_execution_cycle.md R110, R111). -/

namespace Sys2Proof.Machine

/-- One step (R110, R111): "the core takes a step only while `run = RUNNING`" (R30). -/
def step (s : State) : Host.Outcome State Fault Refusal :=
  match s.run with
  | .running => runningStep s
  | .halted => terminalStep s
  | .faulted _ => terminalStep s
  | .stopped => terminalStep s

/-- `s` with the instruction Word `w` (its low `nbits` bits) stored where `step` fetches next (R80, R110). Every instruction
is one Word, so that nothing above 16 bits is stored. -/
def State.withFetchWord (s : State) (nbits w : Nat) : State :=
  s.readyToFetch.setCell s.readyToFetch.pc (BitVec.ofNat 16 (w % 2 ^ nbits))

end Sys2Proof.Machine
end

