-- ==== Sys2Proof/Machine/HostControl.lean ====
section
/-! DEFINITION. Host control before a run (spec/00_scope.md R13): reset and image load (spec/70_reset_and_hazards.md R230 to
R239). -/

namespace Sys2Proof.Machine

/-- Reset of a machine whose console has a history (R230, R231): every piece of core state takes its reset value; the
console belongs to the environment and is not reset (R35; log entry 32). -/
def State.hostReset (s : State) : State :=
  { State.reset with kbdQueue := s.kbdQueue, out := s.out, env := s.env, draws := s.draws }

/-- `b * 256 + b'`, the Word of two Bytes of an image stream (R57, R233). -/
def bigEndianWord (hi lo : Byte) : Word := BitVec.ofNat 16 (hi.toNat * 256 + lo.toNat)

/-- The Words of a byte stream, big-endian: the first of two Bytes is bits [15:8] (R57, R233); `none` for an odd number of
Bytes (R237). -/
def bigEndianWords : List Byte → Option (List Word)
  | [] => some []
  | [_] => none
  | hi :: lo :: rest => (bigEndianWords rest).map (bigEndianWord hi lo :: ·)

/-- `MEM[a + i] <- ws[i]` for each Word in order, at addresses modulo 65536 (R233). -/
def State.placeWords (s : State) : Word → List Word → State
  | _, [] => s
  | a, w :: rest => (s.setCell a w).placeWords (a + 1) rest

/-- Placing an image's Words from its origin, with the policy `IMAGE_OVERFLOW` for one that passes 0xFFFF (R233, R235). -/
def State.placeImage (s : State) (origin : Word) (ws : List Word) : Result :=
  if origin.toNat + ws.length ≤ Config.memWords then .next (s.placeWords origin ws)
  else
    match Config.imageOverflow with
    | .refuse => .refused .imagePastTop
    | .truncate => .next (s.placeWords origin (ws.take (Config.memWords - origin.toNat)))
    | .wrap => .next (s.placeWords origin ws)

/-- Loading one image stream: "word 0 = load origin", then the Words (R233, R235, R237). -/
def State.loadImage (s : State) (stream : List Byte) : Result :=
  match stream with
  | [] => .refused .imageWithoutOrigin
  | [_] => .refused .imageWithoutOrigin
  | _ :: _ :: _ =>
    match bigEndianWords stream with
    | none => .refused .imageOddLength
    | some [] => .refused .imageWithoutOrigin
    | some (origin :: ws) => s.placeImage origin ws

/-- Loading several images in order, a later one over an earlier one's Words (R236); the first that is not loaded aborts
the whole run (R205). -/
def State.loadImages (s : State) : List (List Byte) → Result
  | [] => .next s
  | stream :: rest =>
    match s.loadImage stream with
    | .next s' => s'.loadImages rest
    | .fault r => .fault r
    | .refused r => .refused r

/-- The launch inputs of a run put into a state: the Bytes already in the queue and the environment's coming moves (R35,
R231, U16, U17). -/
def State.withConsole (s : State) (keys : List Byte) (env : List EnvMove) : State :=
  { s with kbdQueue := keys, env := env }

/-- The order of start-up (R239): reset, then every image in order; the first step comes after. -/
def boot (images : List (List Byte)) (keys : List Byte) (env : List EnvMove) : Result :=
  (State.reset.withConsole keys env).loadImages images

end Sys2Proof.Machine
end

