-- ==== Sys2Proof/Safety.lean ====
section
/-! DEFINITION. What the claims of the model are stated in: the ends of a run, the invariant every step keeps, and the
observational predicates of the frames. -/

namespace Sys2Proof.Machine

/-- "The normal end is `run = HALTED`" (spec/40_execution_cycle.md R112). -/
def State.normalEnd (s : State) : Prop := s.run = .halted

/-- "A claim about a program must show the run does not reach" FAULTED (spec/60_exceptions.md R203). -/
def State.safe (s : State) : Prop := ∀ cause, s.run ≠ .faulted cause

/-- What the run state says about the rest of the state: HALTED is left by the HALT routine (R112, R168), FAULTED by a
reserved opcode (R190, R191) or an unknown trap code (R169), with the recorded address one below `pc`. -/
def State.runConsistent (s : State) : Prop :=
  match s.run with
  | .running => True
  | .stopped => True
  | .halted => s.readReg 7 = s.pc ∧ Config.haltNotice <:+ s.out
  | .faulted (.illegalOpcode instr addr) =>
    addr = s.pc - 1 ∧
      (Config.opcodeOf (field instr 12 4) = .rti ∨ Config.opcodeOf (field instr 12 4) = .res)
  | .faulted (.illegalTrap code addr) =>
    addr = s.pc - 1 ∧ s.readReg 7 = s.pc ∧ Config.trapRoutine code = none

/-- A waiting instruction: the core runs, the queue is empty, and what the TRAP wrote before the wait is in place (R113,
R162). -/
def State.waitConsistent (s : State) : Prop :=
  s.wait ≠ none → s.run = .running ∧ s.kbdQueue = [] ∧ s.readReg 7 = s.pc

/-- THE INVARIANT: memory in its canonical form, and the run state and a wait as the rules leave them. -/
structure State.Inv (s : State) : Prop where
  memory : s.mem.wf
  run : s.runConsistent
  wait : s.waitConsistent

/-- Two states alike in everything but the two device addresses' backing cells, which no read returns (R54). -/
structure AgreeOffDevices (s t : State) : Prop where
  x : s.x = t.x
  pc : s.pc = t.pc
  cond : s.cond = t.cond
  run : s.run = t.run
  kbdQueue : s.kbdQueue = t.kbdQueue
  out : s.out = t.out
  wait : s.wait = t.wait
  env : s.env = t.env
  draws : s.draws = t.draws
  cells : ∀ a, a ≠ Config.kbsrAddr → a ≠ Config.kbdrAddr → s.cell a = t.cell a

/-- Two outcomes alike in that sense. -/
def AlikeOutcomes : Result → Result → Prop
  | .next s, .next t => AgreeOffDevices s t
  | .fault a, .fault b => a = b
  | .refused a, .refused b => a = b
  | _, _ => False

/-! ## What frames are stated in -/

/-- Every general register but those of a list is unchanged. -/
def SameRegsBut (s t : State) (rs : List Reg) : Prop := ∀ r, r ∉ rs → t.readReg r = s.readReg r

/-- Every memory cell is unchanged, the two device addresses' backing cells included. -/
def SameCells (s t : State) : Prop := ∀ a, t.cell a = s.cell a

/-- Every memory cell but one is unchanged. -/
def SameCellsBut (s t : State) (ea : Word) : Prop := ∀ a, a ≠ ea → t.cell a = s.cell a

/-- The console's input and output and the model's own draws are unchanged. -/
def SameConsole (s t : State) : Prop := t.kbdQueue = s.kbdQueue ∧ t.out = s.out ∧ t.draws = s.draws

/-- The run state, a wait in progress and the environment's coming moves are unchanged. -/
def SameControl (s t : State) : Prop := t.run = s.run ∧ t.wait = s.wait ∧ t.env = s.env

/-- `c` is the condition of the Word `v`, in unsigned ranges (spec/10_state.md R27). -/
def CondFollows (c : Cond) (v : Word) : Prop :=
  (v.toNat = 0 → c = .zero) ∧ (0x8000 ≤ v.toNat → c = .negative) ∧ (1 ≤ v.toNat ∧ v.toNat ≤ 0x7FFF → c = .positive)

/-- `t` is `s` with `x[DR] = v` and `cond` set from `v`, and nothing else changed. -/
def ResultOnly (s t : State) (dr : Reg) (v : Word) : Prop :=
  t.readReg dr = v ∧ CondFollows t.cond v ∧ SameRegsBut s t [dr] ∧ t.pc = s.pc ∧ SameCells s t ∧ SameConsole s t ∧
    SameControl s t

/-- `t` is `s` with `x[DR] = v` and `cond` set from `v`, and nothing else changed but the console input that the reads
took: the queue and the draws are those of `r`, the state after the reads. -/
def LoadOnly (s r t : State) (dr : Reg) (v : Word) : Prop :=
  t.readReg dr = v ∧ CondFollows t.cond v ∧ SameRegsBut s t [dr] ∧ t.pc = s.pc ∧ SameCells s t ∧ SameControl s t ∧
    t.out = s.out ∧ t.kbdQueue = r.kbdQueue ∧ t.draws = r.draws

/-- `t` is `s` with `MEM[ea] = v`, and nothing else changed but the console input that the reads took, as in `LoadOnly`. -/
def StoreOnly (s r t : State) (ea v : Word) : Prop :=
  t.cell ea = v ∧ SameCellsBut s t ea ∧ SameRegsBut s t [] ∧ t.cond = s.cond ∧ t.pc = s.pc ∧ SameControl s t ∧
    t.out = s.out ∧ t.kbdQueue = r.kbdQueue ∧ t.draws = r.draws

/-- `t` is `s` with `x[7] = link` and `pc = target`, and nothing else changed. -/
def CallOnly (s t : State) (link target : Word) : Prop :=
  t.readReg 7 = link ∧ t.pc = target ∧ SameRegsBut s t [7] ∧ t.cond = s.cond ∧ SameCells s t ∧ SameConsole s t ∧
    SameControl s t

/-- `t` is `s` with `pc = target`, and nothing else changed. -/
def JumpOnly (s t : State) (target : Word) : Prop :=
  t.pc = target ∧ SameRegsBut s t [] ∧ t.cond = s.cond ∧ SameCells s t ∧ SameConsole s t ∧ SameControl s t

/-- What every TRAP leaves: `x[7] = pc`, and `pc`, `cond`, memory and the coming environment moves as they were
(spec/44_trap.md R160, R161). -/
def TrapFrame (s t : State) : Prop :=
  t.readReg 7 = s.pc ∧ t.pc = s.pc ∧ t.cond = s.cond ∧ SameCells s t ∧ t.env = s.env

/-- The register that a flag-setting instruction writes: exactly ADD, AND, NOT, LD, LDI, LDR, LEA (spec/10_state.md
R28). -/
def flagDest : Instr → Option Reg
  | .addReg dr _ _ => some dr
  | .addImm dr _ _ => some dr
  | .andReg dr _ _ => some dr
  | .andImm dr _ _ => some dr
  | .not dr _ => some dr
  | .ld dr _ => some dr
  | .ldi dr _ => some dr
  | .ldr dr _ _ => some dr
  | .lea dr _ => some dr
  | _ => none

/-- The general registers an instruction may write (Table G, spec/10_state.md R22). -/
def writtenRegs : Instr → List Reg
  | .jsr _ => [7]
  | .jsrr _ => [7]
  | .getc => [7, 0]
  | .in_ => [7, 0]
  | .out => [7]
  | .puts => [7]
  | .putsp => [7]
  | .halt => [7]
  | .trap code =>
    match Config.trapRoutine code with
    | some .getc => [7, 0]
    | some .inEcho => [7, 0]
    | _ => [7]
  | i => (flagDest i).toList

/-- The address a store writes to, computed as R144, R145 and R146 say, in the state the instruction executes in; `none`
for the instructions that store nothing (spec/20_memory.md R55). -/
def storeAddress (s : State) : Instr → Option Word
  | .st _ off => some (s.pc + sext16 off)
  | .sti _ off => some (s.memRead (s.pc + sext16 off)).1
  | .str _ base off => some (s.readReg base + sext16 off)
  | _ => none

/-- The byte stream of an image, big-endian: the origin, then the Words (spec/70_reset_and_hazards.md R233). -/
def imageStream (origin : Word) (ws : List Word) : List Byte :=
  (origin :: ws).flatMap fun w => [highByte w, lowByte w]

/-- `x[0] + i`, the address of the `i`-th Word of a string (spec/44_trap.md R165). -/
def State.stringAddr (s : State) (i : Nat) : Word := s.readReg 0 + BitVec.ofNat 16 i

/-- An address that no device intercepts (Table M, spec/20_memory.md R60). -/
def PlainAddr (a : Word) : Prop := a ≠ Config.kbsrAddr ∧ a ≠ Config.kbdrAddr

end Sys2Proof.Machine
end

