-- ==== Sys2Proof/Certificates/Slice0/Obligations.lean ====
section
/-! DEFINITION. The statements for the provers. In every statement about `exec`, `s` is the state the instruction executes
in: its `pc` is already incremented (spec/00_scope.md R12). The frame predicates (`ResultOnly`, `LoadOnly`, `StoreOnly`,
`CallOnly`, `JumpOnly`, `TrapFrame`) are written out in Sys2Proof/Safety.lean. Parameters of Table P stand by their
`Config` names. -/

open Sys2Proof Sys2Proof.Machine

/-! ## Encoding -/

/-- Fourteen Words written out bit by bit from the formats of Table F decode to the instructions they stand for (R81, R90).
The opcode numbers but 1 and 8, and the trap codes, are the PRESUMED defaults of OPCODE_MAP and Table T (D1, D2; log
entries 1, 2), not the source's. -/
def Obligations.SampleWordsDecode : Prop :=
  decode 0b0000_010_000000100 = .br 0b010 4 ∧
  decode 0b0001_010_011_0_11_100 = .addReg 2 3 4 ∧
  decode 0b0001_000_001_1_00101 = .addImm 0 1 5 ∧
  decode 0b0010_001_000000110 = .ld 1 6 ∧
  decode 0b0100_1_00000000100 = .jsr 4 ∧
  decode 0b0100_0_00_111_000000 = .jsrr 7 ∧
  decode 0b0101_011_001_1_10000 = .andImm 3 1 0b10000 ∧
  decode 0b0111_001_110_000001 = .str 1 6 1 ∧
  decode 0b1001_010_101_111111 = .not 2 5 ∧
  decode 0b1011_010_000001000 = .sti 2 8 ∧
  decode 0b1100_000_111_000000 = .jmp 7 ∧
  decode 0b1111_0000_00100101 = .halt ∧
  decode 0b1111_0000_00100110 = .trap 0x26 ∧
  decode 0b1000_000000000000 = .rti 0

/-- Decoding the encoding of a well-formed instruction gives it back, every operand at every value. -/
def Obligations.DecodeOfEncode : Prop :=
  ∀ i : Instr, i.wellFormed = true → decode (encode i) = i

/-- Every Word decodes to a well-formed instruction, and lies in that instruction's row of spec/opcode_table.json. The
numbers in the rows are the PRESUMED default opcode numbers and trap codes (D1, D2; log entries 1, 2); that the generic
TRAP row is well-formed for the unknown codes only is the model's choice (log entry 31). -/
def Obligations.DecodeLandsInItsTableRow : Prop :=
  ∀ w : Word, (decode w).wellFormed = true ∧ w &&& (decode w).rowMask = (decode w).rowMatch

/-- The decoder as the algorithm of R90, case by case, with TRAP's codes split as Table T (R89) says. The opcode numbers
and trap codes are the spec's own (D1, D2; log entries 1, 2). -/
def Obligations.DecoderAlgorithm : Prop :=
  ∀ w : Word,
    (field w 12 4 = 0b0000 → decode w = .br (field w 9 3) (field w 0 9)) ∧
    (field w 12 4 = 0b0001 → field w 5 1 = 0 → decode w = .addReg (regField w 9) (regField w 6) (regField w 0)) ∧
    (field w 12 4 = 0b0001 → field w 5 1 = 1 → decode w = .addImm (regField w 9) (regField w 6) (field w 0 5)) ∧
    (field w 12 4 = 0b0010 → decode w = .ld (regField w 9) (field w 0 9)) ∧
    (field w 12 4 = 0b0011 → decode w = .st (regField w 9) (field w 0 9)) ∧
    (field w 12 4 = 0b0100 → field w 11 1 = 1 → decode w = .jsr (field w 0 11)) ∧
    (field w 12 4 = 0b0100 → field w 11 1 = 0 → decode w = .jsrr (regField w 6)) ∧
    (field w 12 4 = 0b0101 → field w 5 1 = 0 → decode w = .andReg (regField w 9) (regField w 6) (regField w 0)) ∧
    (field w 12 4 = 0b0101 → field w 5 1 = 1 → decode w = .andImm (regField w 9) (regField w 6) (field w 0 5)) ∧
    (field w 12 4 = 0b0110 → decode w = .ldr (regField w 9) (regField w 6) (field w 0 6)) ∧
    (field w 12 4 = 0b0111 → decode w = .str (regField w 9) (regField w 6) (field w 0 6)) ∧
    (field w 12 4 = 0b1000 → decode w = .rti (field w 0 12)) ∧
    (field w 12 4 = 0b1001 → decode w = .not (regField w 9) (regField w 6)) ∧
    (field w 12 4 = 0b1010 → decode w = .ldi (regField w 9) (field w 0 9)) ∧
    (field w 12 4 = 0b1011 → decode w = .sti (regField w 9) (field w 0 9)) ∧
    (field w 12 4 = 0b1100 → decode w = .jmp (regField w 6)) ∧
    (field w 12 4 = 0b1101 → decode w = .res (field w 0 12)) ∧
    (field w 12 4 = 0b1110 → decode w = .lea (regField w 9) (field w 0 9)) ∧
    (field w 12 4 = 0b1111 → decode w =
      if field w 0 8 = 0x20 then .getc
      else if field w 0 8 = 0x21 then .out
      else if field w 0 8 = 0x22 then .puts
      else if field w 0 8 = 0x23 then .in_
      else if field w 0 8 = 0x24 then .putsp
      else if field w 0 8 = 0x25 then .halt
      else .trap (field w 0 8))

/-- Bits that Table F marks `ignored` do not change what a Word decodes to; for opcodes 8 and 13, whose fault records the
Word, they change nothing but that record (R84, R190, R191). Choices: ignored bits have no effect by D10 (log entry 10),
and opcodes 8 and 13 fault by D7 (log entry 7). -/
def Obligations.IgnoredBitsHaveNoEffect : Prop :=
  ∀ w w' : Word, w &&& (decode w).usedBits = w' &&& (decode w).usedBits →
    (decode w' = decode w) ∨
    (∃ rest rest', ((decode w = .rti rest ∧ decode w' = .rti rest') ∨ (decode w = .res rest ∧ decode w' = .res rest')) ∧
      ∀ s : State, ∃ t t', exec (decode w) s = .next t ∧ exec (decode w') s = .next t' ∧
        t.run = .faulted (.illegalOpcode w (s.pc - 1)) ∧ t'.run = .faulted (.illegalOpcode w' (s.pc - 1)) ∧
        t' = { t with run := t'.run })

/-- `sext_16` and `zext_16` by their formulas (R10). -/
def Obligations.SignAndZeroExtension : Prop :=
  ∀ n : Nat, n = 5 ∨ n = 6 ∨ n = 9 ∨ n = 11 → ∀ f : BitVec n,
    (f.getLsbD (n - 1) = false → (sext16 f).toNat = f.toNat) ∧
    (f.getLsbD (n - 1) = true → (sext16 f).toNat = f.toNat + (65536 - 2 ^ n)) ∧
    (∀ i, i < 16 → (sext16 f).getLsbD i = if i < n then f.getLsbD i else f.getLsbD (n - 1)) ∧
    (zext16 f).toNat = f.toNat

/-! ## The condition register -/

/-- `setcc(v)` (R27): the three ranges, and nothing but `cond` changes. -/
def Obligations.SetccRule : Prop :=
  ∀ (s : State) (v : Word),
    (v = 0 → (s.setcc v).cond = .zero) ∧
    (0x8000 ≤ v.toNat → v.toNat ≤ 0xFFFF → (s.setcc v).cond = .negative) ∧
    (0x0001 ≤ v.toNat → v.toNat ≤ 0x7FFF → (s.setcc v).cond = .positive) ∧
    s.setcc v = { s with cond := (s.setcc v).cond }

/-- The one-hot representation: exactly one of three distinct single bits, ZERO the middle one; BR's bit 11 selects
NEGATIVE, bit 10 ZERO, bit 9 POSITIVE (R25, R26; the places of NEGATIVE and POSITIVE are D6, log entry 6). -/
def Obligations.ConditionMasksAreOneHot : Prop :=
  Cond.mask .negative = 0b100 ∧ Cond.mask .zero = 0b010 ∧ Cond.mask .positive = 0b001 ∧
  ∀ (s : State) (n z p : Bool),
    (s.branchTaken (BitVec.ofBool n ++ BitVec.ofBool z ++ BitVec.ofBool p) = true ↔
      (n = true ∧ s.cond = .negative) ∨ (z = true ∧ s.cond = .zero) ∨ (p = true ∧ s.cond = .positive))

/-- Exactly ADD, AND, NOT, LD, LDI, LDR, LEA write `cond`, from the value just written to `x[DR]`; every other
instruction, trap routine and fault leaves it (R28, with TRAP_INPUT_SETS_COND false: D15, log entry 15). -/
def Obligations.OnlyTheListedInstructionsWriteCond : Prop :=
  ∀ (i : Instr) (s t : State), exec i s = .next t →
    match flagDest i with
    | some dr => CondFollows t.cond (t.readReg dr)
    | none => t.cond = s.cond

/-! ## Operate instructions -/

/-- ADD, both forms: encoding, sum modulo 2^16 with both sources read before the destination is written, flags, frame
(R120, R121). -/
def Obligations.AddResult : Prop :=
  (∀ w : Word, field w 12 4 = 0b0001 → field w 5 1 = 0 →
    decode w = .addReg (regField w 9) (regField w 6) (regField w 0)) ∧
  (∀ w : Word, field w 12 4 = 0b0001 → field w 5 1 = 1 →
    decode w = .addImm (regField w 9) (regField w 6) (field w 0 5)) ∧
  (∀ (dr sr1 sr2 : Reg) (s : State), ∃ t, exec (.addReg dr sr1 sr2) s = .next t ∧
    ResultOnly s t dr (BitVec.ofNat 16 ((s.readReg sr1).toNat + (s.readReg sr2).toNat))) ∧
  (∀ (dr sr1 : Reg) (imm5 : BitVec 5) (s : State), ∃ t, exec (.addImm dr sr1 imm5) s = .next t ∧
    ResultOnly s t dr (BitVec.ofNat 16 ((s.readReg sr1).toNat + (sext16 imm5).toNat)))

/-- AND, both forms, bit by bit, the immediate sign-extended (R122, R123; the opcode is parameter OPCODE_MAP). -/
def Obligations.AndResult : Prop :=
  (∀ w : Word, field w 12 4 = Config.opcodeNumber .and → field w 5 1 = 0 →
    decode w = .andReg (regField w 9) (regField w 6) (regField w 0)) ∧
  (∀ w : Word, field w 12 4 = Config.opcodeNumber .and → field w 5 1 = 1 →
    decode w = .andImm (regField w 9) (regField w 6) (field w 0 5)) ∧
  (∀ (dr sr1 sr2 : Reg) (s : State), ∃ t v, exec (.andReg dr sr1 sr2) s = .next t ∧ ResultOnly s t dr v ∧
    ∀ b, v.getLsbD b = ((s.readReg sr1).getLsbD b && (s.readReg sr2).getLsbD b)) ∧
  (∀ (dr sr1 : Reg) (imm5 : BitVec 5) (s : State), ∃ t v, exec (.andImm dr sr1 imm5) s = .next t ∧ ResultOnly s t dr v ∧
    ∀ b, v.getLsbD b = ((s.readReg sr1).getLsbD b && (sext16 imm5).getLsbD b))

/-- NOT: `~v = 0xFFFF - v` (R124; the opcode is parameter OPCODE_MAP). -/
def Obligations.NotResult : Prop :=
  (∀ w : Word, field w 12 4 = Config.opcodeNumber .not → decode w = .not (regField w 9) (regField w 6)) ∧
  (∀ (dr sr : Reg) (s : State), ∃ t, exec (.not dr sr) s = .next t ∧
    ResultOnly s t dr (BitVec.ofNat 16 (0xFFFF - (s.readReg sr).toNat)))

/-! ## Control transfer -/

/-- BR: taken iff the mask selects the condition; target from the incremented `pc`; nothing else changes (R130; the
opcode is parameter OPCODE_MAP). -/
def Obligations.BranchResult : Prop :=
  (∀ w : Word, field w 12 4 = Config.opcodeNumber .br → decode w = .br (field w 9 3) (field w 0 9)) ∧
  (∀ (nzp : BitVec 3) (off : BitVec 9) (s : State), ∃ t, exec (.br nzp off) s = .next t ∧
    JumpOnly s t (if nzp &&& s.cond.mask ≠ 0 then s.pc + sext16 off else s.pc))

/-- JMP, and RET when BaseR is 7: every value is a legal target; `x[7]` is not written (R132; the opcode is parameter
OPCODE_MAP). -/
def Obligations.JumpResult : Prop :=
  (∀ w : Word, field w 12 4 = Config.opcodeNumber .jmp → decode w = .jmp (regField w 6)) ∧
  (∀ (base : Reg) (s : State), ∃ t, exec (.jmp base) s = .next t ∧ JumpOnly s t (s.readReg base))

/-- JSR: the link is the incremented `pc`, taken before `pc` is altered (R133; the opcode is parameter OPCODE_MAP). -/
def Obligations.SubroutineCallResult : Prop :=
  (∀ w : Word, field w 12 4 = Config.opcodeNumber .jsr → field w 11 1 = 1 → decode w = .jsr (field w 0 11)) ∧
  (∀ (off : BitVec 11) (s : State), ∃ t, exec (.jsr off) s = .next t ∧ CallOnly s t s.pc (s.pc + sext16 off))

/-- JSRR: the base register is read after the link is written (R134; the opcode is parameter OPCODE_MAP). That `JSRR R7`
therefore falls through is derived from the order of the two assignments (R134; log entry 25, DEDUCED). -/
def Obligations.SubroutineCallThroughRegisterResult : Prop :=
  (∀ w : Word, field w 12 4 = Config.opcodeNumber .jsr → field w 11 1 = 0 → decode w = .jsrr (regField w 6)) ∧
  (∀ (base : Reg) (s : State), ∃ t, exec (.jsrr base) s = .next t ∧
    CallOnly s t s.pc (if base = 7 then s.pc else s.readReg base))

/-- How `pc` changes: the fetch adds 1 modulo 2^16, and after it only BR, JMP, JSR and JSRR write `pc` (R24), with
the targets of R130 and R132 to R134; the target of `JSRR R7` is derived (R134; log entry 25, DEDUCED). -/
def Obligations.OnlyFourFormsWritePc : Prop :=
  (∀ s : State, s.fetch.2.pc = s.pc + 1) ∧
  ∀ (i : Instr) (s t : State), exec i s = .next t →
    t.pc =
      match i with
      | .br nzp off => if nzp &&& s.cond.mask ≠ 0 then s.pc + sext16 off else s.pc
      | .jmp base => s.readReg base
      | .jsr off => s.pc + sext16 off
      | .jsrr base => if base = 7 then s.pc else s.readReg base
      | _ => s.pc

/-! ## Memory -/

/-- MemRead by cases on the address: a plain cell without side effect; the live keyboard status; the head of the queue,
consumed (R50, R51, R52). With no character pending the Word is a free value and nothing but the model's count of draws
changes (log entry 13). -/
def Obligations.MemReadByCases : Prop :=
  ∀ s : State,
    (∀ a, PlainAddr a → s.memRead a = (s.cell a, s)) ∧
    s.memRead Config.kbsrAddr = (if s.kbdQueue = [] then 0 else Config.kbsrReady, s) ∧
    Config.kbsrReady ≠ 0 ∧
    (∀ c rest, s.kbdQueue = c :: rest →
      s.memRead Config.kbdrAddr = (Config.kbdrEncode c, { s with kbdQueue := rest })) ∧
    (s.kbdQueue = [] → (s.memRead Config.kbdrAddr).2 = { s with draws := s.draws + 1 })

/-- MemWrite at every address, the device addresses included: one cell changes, and a later read of a plain address
returns the latest write (R53, R63). That a store to a device address is a plain store to a cell the model keeps is a
choice (D12, R54; log entry 12). -/
def Obligations.ReadAfterWrite : Prop :=
  ∀ (s : State) (a v : Word),
    (∀ b, (s.memWrite a v).cell b = if b = a then v else s.cell b) ∧
    (∀ b, PlainAddr b → ((s.memWrite a v).memRead b).1 = if b = a then v else (s.memRead b).1) ∧
    s.memWrite a v = { s with mem := (s.memWrite a v).mem }

/-- Two memories in canonical form that read alike at every address are equal data: a property of the model's memory
form (log entry 26). -/
def Obligations.CanonicalMemoriesThatReadAlikeAreEqual : Prop :=
  ∀ m m' : Memory, m.wf → m'.wf → (∀ a, a < Config.memWords → m.read a = m'.read a) → m = m'

/-- A store is seen by the very next fetch of the cell (R66). -/
def Obligations.FetchSeesTheLatestStore : Prop :=
  ∀ (s : State) (a v : Word), PlainAddr a →
    ((s.memWrite a v).setPc a).fetch = (v, (s.memWrite a v).setPc (a + 1))

/-- Only ST, STI and STR write memory, one cell each, at the address their rules compute (R55, R144 to R146). -/
def Obligations.OnlyStoresWriteMemory : Prop :=
  ∀ (i : Instr) (s t : State), exec i s = .next t →
    match storeAddress s i with
    | some ea => SameCellsBut s t ea
    | none => SameCells s t

/-- THE DEVICE CELLS ARE INVISIBLE: states alike in everything but the two device addresses' backing cells step to states
alike in the same sense, so that no program observes a value stored there (R54). -/
def Obligations.DeviceCellsAreInvisible : Prop :=
  ∀ s t : State, AgreeOffDevices s t → AlikeOutcomes (step s) (step t)

/-! ## Loads and stores -/

/-- LD (R140; the opcode is parameter OPCODE_MAP). -/
def Obligations.LoadResult : Prop :=
  (∀ w : Word, field w 12 4 = Config.opcodeNumber .ld → decode w = .ld (regField w 9) (field w 0 9)) ∧
  (∀ (dr : Reg) (off : BitVec 9) (s : State), ∃ t, exec (.ld dr off) s = .next t ∧
    LoadOnly s (s.memRead (s.pc + sext16 off)).2 t dr (s.memRead (s.pc + sext16 off)).1)

/-- LDI: two reads in order, each through MemRead (R141; the opcode is parameter OPCODE_MAP). -/
def Obligations.LoadIndirectResult : Prop :=
  (∀ w : Word, field w 12 4 = Config.opcodeNumber .ldi → decode w = .ldi (regField w 9) (field w 0 9)) ∧
  (∀ (dr : Reg) (off : BitVec 9) (s : State),
    let pointer := s.memRead (s.pc + sext16 off)
    let value := pointer.2.memRead pointer.1
    ∃ t, exec (.ldi dr off) s = .next t ∧ LoadOnly s value.2 t dr value.1)

/-- LDR: the base is read before the destination is written (R142; the opcode is parameter OPCODE_MAP). -/
def Obligations.LoadBaseOffsetResult : Prop :=
  (∀ w : Word, field w 12 4 = Config.opcodeNumber .ldr → decode w = .ldr (regField w 9) (regField w 6) (field w 0 6)) ∧
  (∀ (dr base : Reg) (off : BitVec 6) (s : State), ∃ t, exec (.ldr dr base off) s = .next t ∧
    LoadOnly s (s.memRead (s.readReg base + sext16 off)).2 t dr (s.memRead (s.readReg base + sext16 off)).1)

/-- LEA: the address itself, no memory access, flags set from it (R143; the opcode is parameter OPCODE_MAP). -/
def Obligations.LoadEffectiveAddressResult : Prop :=
  (∀ w : Word, field w 12 4 = Config.opcodeNumber .lea → decode w = .lea (regField w 9) (field w 0 9)) ∧
  (∀ (dr : Reg) (off : BitVec 9) (s : State), ∃ t, exec (.lea dr off) s = .next t ∧
    ResultOnly s t dr (s.pc + sext16 off))

/-- ST (R144; the opcode is parameter OPCODE_MAP). -/
def Obligations.StoreResult : Prop :=
  (∀ w : Word, field w 12 4 = Config.opcodeNumber .st → decode w = .st (regField w 9) (field w 0 9)) ∧
  (∀ (sr : Reg) (off : BitVec 9) (s : State), ∃ t, exec (.st sr off) s = .next t ∧
    StoreOnly s s t (s.pc + sext16 off) (s.readReg sr))

/-- STI: the pointer read through MemRead, then the plain store (R145; the opcode is parameter OPCODE_MAP). -/
def Obligations.StoreIndirectResult : Prop :=
  (∀ w : Word, field w 12 4 = Config.opcodeNumber .sti → decode w = .sti (regField w 9) (field w 0 9)) ∧
  (∀ (sr : Reg) (off : BitVec 9) (s : State), ∃ t, exec (.sti sr off) s = .next t ∧
    StoreOnly s (s.memRead (s.pc + sext16 off)).2 t (s.memRead (s.pc + sext16 off)).1 (s.readReg sr))

/-- STR (R146; the opcode is parameter OPCODE_MAP). -/
def Obligations.StoreBaseOffsetResult : Prop :=
  (∀ w : Word, field w 12 4 = Config.opcodeNumber .str → decode w = .str (regField w 9) (regField w 6) (field w 0 6)) ∧
  (∀ (sr base : Reg) (off : BitVec 6) (s : State), ∃ t, exec (.str sr base off) s = .next t ∧
    StoreOnly s s t (s.readReg base + sext16 off) (s.readReg sr))

/-- Which general registers an instruction may write: those of Table G, and no others (R22). -/
def Obligations.OnlyTableRegistersAreWritten : Prop :=
  ∀ (i : Instr) (s t : State), exec i s = .next t → SameRegsBut s t (writtenRegs i)

/-! ## TRAP and its routines -/

/-- GETC: with a character pending it completes; with none it waits, having written `x[7]` only (R160, R162, R163). -/
def Obligations.GetcResult : Prop :=
  (∀ (s : State) (c : Byte) (rest : List Byte), s.kbdQueue = c :: rest → ∃ t, exec .getc s = .next t ∧ TrapFrame s t ∧
    SameRegsBut s t [7, 0] ∧ (t.readReg 0).toNat = c.toNat ∧ t.kbdQueue = rest ∧ t.out = s.out ∧ t.run = s.run ∧
    t.wait = none ∧ t.draws = s.draws) ∧
  (∀ s : State, s.kbdQueue = [] → ∃ t, exec .getc s = .next t ∧ TrapFrame s t ∧ SameRegsBut s t [7] ∧
    SameConsole s t ∧ t.run = s.run ∧ t.wait = some .getc)

/-- IN: as GETC, and exactly the character read is appended to the output, with no prompt (R160, R162, R166). -/
def Obligations.InResult : Prop :=
  (∀ (s : State) (c : Byte) (rest : List Byte), s.kbdQueue = c :: rest → ∃ t, exec .in_ s = .next t ∧ TrapFrame s t ∧
    SameRegsBut s t [7, 0] ∧ (t.readReg 0).toNat = c.toNat ∧ t.kbdQueue = rest ∧ t.out = s.out ++ [c] ∧ t.run = s.run ∧
    t.wait = none ∧ t.draws = s.draws) ∧
  (∀ s : State, s.kbdQueue = [] → ∃ t, exec .in_ s = .next t ∧ TrapFrame s t ∧ SameRegsBut s t [7] ∧
    SameConsole s t ∧ t.run = s.run ∧ t.wait = some .inEcho)

/-- OUT: the low Byte of `x[0]`, whatever its value, is appended to the output (R164). -/
def Obligations.OutResult : Prop :=
  ∀ s : State, ∃ t b, exec .out s = .next t ∧ TrapFrame s t ∧ SameRegsBut s t [7] ∧
    t.out = s.out ++ [b] ∧ b.toNat = (s.readReg 0).toNat % 256 ∧ t.kbdQueue = s.kbdQueue ∧ t.draws = s.draws ∧
    t.run = s.run ∧ t.wait = s.wait

/-- PUTS and PUTSP complete in every state: the scan always ends, because each pass over memory reads the keyboard
status, which is zero once the queue is drained. They change only `x[7]` and the console, append to the output, and
take Bytes off the front of the queue (R161, R165, R167; that every scan ends is deduced, against D18 and U9: log entry
18; that scans read through MemRead is D11: log entry 11). -/
def Obligations.StringRoutinesAlwaysComplete : Prop :=
  ∀ (s : State) (i : Instr), i = .puts ∨ i = .putsp → ∃ t, exec i s = .next t ∧ TrapFrame s t ∧ SameRegsBut s t [7] ∧
    t.run = s.run ∧ t.wait = s.wait ∧ s.out <+: t.out ∧ t.kbdQueue <:+ s.kbdQueue

/-- PUTS writes the low Byte of each Word of a string up to the first zero Word (R165), for a string that lies at no
device address. -/
def Obligations.PutsWritesTheString : Prop :=
  ∀ (s : State) (ws : List Word),
    (∀ i, i ≤ ws.length → PlainAddr (s.stringAddr i)) →
    (∀ i (h : i < ws.length), s.cell (s.stringAddr i) = ws[i] ∧ ws[i] ≠ 0) →
    s.cell (s.stringAddr ws.length) = 0 →
    ∃ t, exec .puts s = .next t ∧ TrapFrame s t ∧ SameRegsBut s t [7] ∧ t.run = s.run ∧ t.wait = s.wait ∧
      t.out = s.out ++ ws.map (fun w => BitVec.ofNat 8 w.toNat) ∧ t.kbdQueue = s.kbdQueue ∧ t.draws = s.draws

/-- PUTSP writes two Bytes of each Word, the low one first, up to the first zero Byte in that order (R167), for a string
that lies at no device address: `ps` are the Words before the last one read. -/
def Obligations.PutspWritesThePackedString : Prop :=
  ∀ (s : State) (ps : List (Byte × Byte)) (last : Word),
    (∀ i, i ≤ ps.length → PlainAddr (s.stringAddr i)) →
    (∀ i (h : i < ps.length), s.cell (s.stringAddr i) = bitsAt 8 ps[i].2 ||| bitsAt 0 ps[i].1 ∧
      ps[i].1 ≠ 0 ∧ ps[i].2 ≠ 0) →
    s.cell (s.stringAddr ps.length) = last →
    (field last 0 8 = 0 ∨ field last 8 8 = 0) →
    ∃ t, exec .putsp s = .next t ∧ TrapFrame s t ∧ SameRegsBut s t [7] ∧ t.run = s.run ∧ t.wait = s.wait ∧
      t.out = s.out ++ ps.flatMap (fun p => [p.1, p.2]) ++ (if field last 0 8 = 0 then [] else [field last 0 8]) ∧
      t.kbdQueue = s.kbdQueue ∧ t.draws = s.draws

/-- HALT: the notice is written and the run state becomes HALTED (R168; the notice is parameter HALT_NOTICE). -/
def Obligations.HaltResult : Prop :=
  ∀ s : State, ∃ t, exec .halt s = .next t ∧ TrapFrame s t ∧ SameRegsBut s t [7] ∧ t.run = .halted ∧
    t.out = s.out ++ Config.haltNotice ∧ t.kbdQueue = s.kbdQueue ∧ t.draws = s.draws ∧ t.wait = s.wait

/-- TRAP with an unknown code: `x[7]` is written, then IllegalTrap is raised with the code and the TRAP's address; with a
code that names a routine, the generic form is that routine's instruction (R160, R169). -/
def Obligations.TrapResult : Prop :=
  (∀ (code : BitVec 8) (s : State), (code.toNat < 0x20 ∨ 0x25 < code.toNat) →
    ∃ t, exec (.trap code) s = .next t ∧ TrapFrame s t ∧ SameRegsBut s t [7] ∧ SameConsole s t ∧ t.wait = s.wait ∧
      t.run = .faulted (.illegalTrap code (s.pc - 1))) ∧
  (∀ s : State, exec (.trap 0x20) s = exec .getc s ∧ exec (.trap 0x21) s = exec .out s ∧
    exec (.trap 0x22) s = exec .puts s ∧ exec (.trap 0x23) s = exec .in_ s ∧ exec (.trap 0x24) s = exec .putsp s ∧
    exec (.trap 0x25) s = exec .halt s)

/-- Opcodes 8 and 13 raise IllegalOpcode with the instruction Word and its address, and nothing else changes (R190, R191,
R203; the fault policy is D7, log entry 7). -/
def Obligations.ReservedOpcodesFault : Prop :=
  ∀ (rest : BitVec 12) (s : State),
    exec (.rti rest) s = .next { s with run := .faulted (.illegalOpcode (BitVec.ofNat 16 (0x8000 + rest.toNat)) (s.pc - 1)) } ∧
    exec (.res rest) s = .next { s with run := .faulted (.illegalOpcode (BitVec.ofNat 16 (0xD000 + rest.toNat)) (s.pc - 1)) }

/-- Console effects only append to the output and only take Bytes off the front of the queue; a step adds to the queue
only what the environment delivers at its boundary (R14, R170, R171). That deliveries are a list of moves in the state
and land at boundaries only, where R14 says at any time, is the model's choice (log entry 14). -/
def Obligations.ConsoleIsAppendOnlyAndFirstInFirstOut : Prop :=
  (∀ (i : Instr) (s t : State), exec i s = .next t → s.out <+: t.out ∧ t.kbdQueue <:+ s.kbdQueue) ∧
  (∀ s t : State, s.run = .running → step s = .next t →
    s.out <+: t.out ∧ t.kbdQueue <:+ s.kbdQueue ++ s.env.head?.elim [] EnvMove.keys)

/-! ## The step -/

/-- What the environment does at a boundary: its next move's Bytes join the queue behind those that wait; with no move
left nothing happens (R14; the moves are the model's own field, log entry 14). -/
def Obligations.EnvironmentMovesAtBoundary : Prop :=
  (∀ s : State, s.env = [] → s.deliver = s ∧ s.stopRequested = false) ∧
  (∀ (s : State) (e : EnvMove) (rest : List EnvMove), s.env = e :: rest →
    s.deliver = { s with kbdQueue := s.kbdQueue ++ e.keys, env := rest } ∧ s.stopRequested = e.stop)

/-- A step runs the decoded instruction: in RUNNING, with no stop request and nothing in progress, it is the environment's
move, the fetch through MemRead, `pc <- pc + 1`, and `exec` of the decoded Word (R110). That the fetch is intercepted at
the device addresses is D11 (log entry 11); that the environment moves first, at the boundary, is the model's choice (log
entry 14). -/
def Obligations.StepRunsTheDecodedInstruction : Prop :=
  ∀ (s r : State) (w : Word) (i : Instr), s.run = .running → s.stopRequested = false → s.wait = none →
    s.deliver.memRead s.pc = (w, r) → decode w = i →
    step s = exec i (r.setPc (s.pc + 1))

/-- "In a terminal state the core takes no step and no state changes" (R111; rendered as a step to the same state: log
entry 24). -/
def Obligations.TerminalStatesStay : Prop :=
  ∀ s : State, s.run ≠ .running → step s = .next s

/-- The stop request ends a run at the boundary, or out of a console wait, changing no register, `pc`, `cond`, memory or
output (R206; D21, log entries 14, 21). -/
def Obligations.StopRequestEndsTheRun : Prop :=
  ∀ s : State, s.run = .running → s.stopRequested = true →
    ∃ t, step s = .next t ∧ t.run = .stopped ∧ t.wait = none ∧ SameRegsBut s t [] ∧ t.pc = s.pc ∧ t.cond = s.cond ∧
      SameCells s t ∧ t.out = s.out

/-- A waiting GETC or IN holds while no character arrives, and completes with the first one that does (R113, R162;
log entries 14, 15, 20). -/
def Obligations.WaitEndsWithTheFirstCharacter : Prop :=
  ∀ (s : State) (w : Wait), s.run = .running → s.stopRequested = false → s.wait = some w →
    (s.deliver.kbdQueue = [] → step s = .next s.deliver) ∧
    (∀ c rest, s.deliver.kbdQueue = c :: rest → ∃ t, step s = .next t ∧ t.wait = none ∧ t.run = .running ∧
      SameRegsBut s t [0] ∧ (t.readReg 0).toNat = c.toNat ∧ t.pc = s.pc ∧ t.cond = s.cond ∧ SameCells s t ∧
      t.kbdQueue = rest ∧ t.out = s.out ++ (match w with | .getc => [] | .inEcho => [c]))

/-- The complete list of ways `run` leaves RUNNING (R111): the HALT routine, a reserved opcode, an unknown trap code, the
stop request; the faults record the Word or code and the address it was fetched from. Choices: D7 (log entry 7), the
intercepted fetch D11 (log entry 11), the environment's move at the boundary (log entry 14). -/
def Obligations.WaysOutOfRunning : Prop :=
  ∀ s t : State, s.run = .running → step s = .next t → t.run ≠ .running →
    (t.run = .stopped ∧ s.stopRequested = true) ∨
    (s.stopRequested = false ∧ s.wait = none ∧
      ((t.run = .halted ∧ decode (s.deliver.memRead s.pc).1 = .halt) ∨
       (∃ code, t.run = .faulted (.illegalTrap code s.pc) ∧ decode (s.deliver.memRead s.pc).1 = .trap code) ∨
       (∃ instr rest, t.run = .faulted (.illegalOpcode instr s.pc) ∧ instr = (s.deliver.memRead s.pc).1 ∧
         (decode instr = .rti rest ∨ decode instr = .res rest))))

/-- PROGRESS: from every state there is a next state. No instruction is refused and none stops the machine: a fault of the
spec is a state (R203), a wait is a state (R162), and every string scan ends (log entry 18). -/
def Obligations.EveryStateHasANextState : Prop :=
  ∀ s : State, ∃ t, step s = .next t

/-- THE INVARIANT: memory in canonical form; HALTED only with `x[7] = pc` and the notice at the end of the output (R112);
FAULTED only with the recorded address one below `pc` and a Word or code that is illegal (R201), with `x[7] = pc` for a
code (R169; D8, log entry 9); a wait only while
RUNNING with an empty queue and `x[7] = pc` (R113). Every step keeps it. -/
def Obligations.StepKeepsTheInvariant : Prop :=
  ∀ s t : State, s.Inv → step s = .next t → t.Inv

/-- The invariant holds right after reset. -/
def Obligations.ResetHasTheInvariant : Prop :=
  State.reset.Inv

/-! ## Reset and image load -/

/-- Reset (R230): every piece of core state at its stated value, whatever the state before and whatever images are then
loaded before the first step, but for the memory those images cover. -/
def Obligations.ResetState : Prop :=
  (∀ s : State,
    (∀ r, s.hostReset.readReg r = 0x0000) ∧ s.hostReset.pc = 0x3000 ∧ s.hostReset.cond = .zero ∧
    s.hostReset.run = .running ∧ (∀ a, s.hostReset.cell a = 0x0000)) ∧
  (∀ r, State.reset.readReg r = 0x0000) ∧ State.reset.pc = 0x3000 ∧ State.reset.cond = .zero ∧
  State.reset.run = .running ∧ (∀ a, State.reset.cell a = 0x0000) ∧
  (∀ (images : List (List Byte)) (keys : List Byte) (env : List EnvMove) (t : State), boot images keys env = .next t →
    (∀ r, t.readReg r = 0x0000) ∧ t.pc = 0x3000 ∧ t.cond = .zero ∧ t.run = .running)

/-- Image load (R233): Word `i` of a big-endian stream lands at `origin + i`; every other cell and all other state keep
their values. The launch precondition is R235's. -/
def Obligations.ImagePlacement : Prop :=
  ∀ (s : State) (origin : Word) (ws : List Word), origin.toNat + ws.length ≤ 65536 →
    ∃ t, s.loadImage (imageStream origin ws) = .next t ∧
      (∀ i (h : i < ws.length), t.cell (origin + BitVec.ofNat 16 i) = ws[i]) ∧
      (∀ a : Word, a.toNat < origin.toNat ∨ origin.toNat + ws.length ≤ a.toNat → t.cell a = s.cell a) ∧
      t = { s with mem := t.mem }

/-- Streams that are given no launch state (R235, R237): too short, odd, or past the top of memory (D22, D23; log entries
22, 23). -/
def Obligations.UncoveredImagesAreRefused : Prop :=
  ∀ s : State,
    (∀ stream : List Byte, stream.length < 2 → s.loadImage stream = .refused .imageWithoutOrigin) ∧
    (∀ stream : List Byte, 2 ≤ stream.length → stream.length % 2 = 1 → s.loadImage stream = .refused .imageOddLength) ∧
    (∀ (origin : Word) (ws : List Word), 65536 < origin.toNat + ws.length →
      s.loadImage (imageStream origin ws) = .refused .imagePastTop)

/-- Several images (R236): loaded in order into the same memory, the later one's Words remain where two overlap. -/
def Obligations.LaterImageWins : Prop :=
  ∀ (s : State) (o₁ o₂ : Word) (ws₁ ws₂ : List Word),
    o₁.toNat + ws₁.length ≤ 65536 → o₂.toNat + ws₂.length ≤ 65536 →
    ∃ t, s.loadImages [imageStream o₁ ws₁, imageStream o₂ ws₂] = .next t ∧
      ∀ a : Word, t.cell a =
        if h : o₂.toNat ≤ a.toNat ∧ a.toNat - o₂.toNat < ws₂.length then ws₂[a.toNat - o₂.toNat]'h.2
        else if h : o₁.toNat ≤ a.toNat ∧ a.toNat - o₁.toNat < ws₁.length then ws₁[a.toNat - o₁.toNat]'h.2
        else s.cell a
end

