-- ==== Sys2Proof/Laws/Encoding.lean ====
section
/-! SUPPORT. Bit fields of a Word put together from fields (spec/00_scope.md R8, spec/30_encoding.md R81): what each field
reads back as, and that the opcode map and its inverse agree. -/

namespace Sys2Proof

theorem field_or (a b : Word) (lo n : Nat) : field (a ||| b) lo n = field a lo n ||| field b lo n := by
  refine BitVec.eq_of_getLsbD_eq fun i hi => ?_
  simp [hi]

/-- A field reads back from where it was put. -/
theorem field_bitsAt_self {n lo : Nat} (f : BitVec n) (h : lo + n ≤ 16) : field (bitsAt lo f) lo n = f := by
  refine BitVec.eq_of_getLsbD_eq fun i hi => ?_
  have h₁ : lo + i < 16 := by omega
  simp [hi, h₁]

/-- A field put elsewhere leaves these bits zero. -/
theorem field_bitsAt_of_disjoint {n lo : Nat} (f : BitVec n) {lo' n' : Nat} (h : lo + n ≤ lo' ∨ lo' + n' ≤ lo) :
    field (bitsAt lo f) lo' n' = 0 := by
  refine BitVec.eq_of_getLsbD_eq fun i hi => ?_
  by_cases hl : lo ≤ lo' + i
  · have hf : f.getLsbD (lo' + i - lo) = false := BitVec.getLsbD_of_ge _ _ (by omega)
    simp [hf]
  · simp [show lo' + i < lo by omega]

@[simp] theorem field_opBits_opcode (o : Opcode) : field (opBits o) 12 4 = Config.opcodeNumber o :=
  field_bitsAt_self _ (by omega)

theorem field_opBits_of_le (o : Opcode) {lo n : Nat} (h : lo + n ≤ 12) : field (opBits o) lo n = 0 :=
  field_bitsAt_of_disjoint _ (.inr h)

@[simp] theorem opcodeOf_opcodeNumber (o : Opcode) : Config.opcodeOf (Config.opcodeNumber o) = o := by
  cases o <;> rfl

theorem opcodeNumber_opcodeOf (n : BitVec 4) : Config.opcodeNumber (Config.opcodeOf n) = n := by
  revert n; decide

@[simp] theorem regBits_toFin (r : Reg) : (regBits r).toFin = r := rfl

/-- `trapRoutine` finds a routine exactly at its own code. -/
theorem trapRoutine_trapCode (r : Routine) : Config.trapRoutine (Config.trapCode r) = some r := by
  cases r <;> rfl

theorem trapCode_of_trapRoutine {code : BitVec 8} {r : Routine} (h : Config.trapRoutine code = some r) :
    code = Config.trapCode r := by
  have := List.find?_some h
  exact (by simpa using this : Config.trapCode r = code).symm

end Sys2Proof
end

