-- ==== Sys2Proof/Laws/State.lean ====
section
/-! SUPPORT. One lemma per field of `State` per update, true by `rfl`, and the reading of registers and cells after an
update: no later proof unfolds a record update. -/

namespace Sys2Proof.Machine.State

variable (s : State)

/-! ## `writeReg` -/

@[simp] theorem writeReg_x (r : Reg) (v : Word) : (s.writeReg r v).x = s.x.set r v := rfl
@[simp] theorem writeReg_pc (r : Reg) (v : Word) : (s.writeReg r v).pc = s.pc := rfl
@[simp] theorem writeReg_cond (r : Reg) (v : Word) : (s.writeReg r v).cond = s.cond := rfl
@[simp] theorem writeReg_run (r : Reg) (v : Word) : (s.writeReg r v).run = s.run := rfl
@[simp] theorem writeReg_mem (r : Reg) (v : Word) : (s.writeReg r v).mem = s.mem := rfl
@[simp] theorem writeReg_kbdQueue (r : Reg) (v : Word) : (s.writeReg r v).kbdQueue = s.kbdQueue := rfl
@[simp] theorem writeReg_out (r : Reg) (v : Word) : (s.writeReg r v).out = s.out := rfl
@[simp] theorem writeReg_wait (r : Reg) (v : Word) : (s.writeReg r v).wait = s.wait := rfl
@[simp] theorem writeReg_env (r : Reg) (v : Word) : (s.writeReg r v).env = s.env := rfl
@[simp] theorem writeReg_draws (r : Reg) (v : Word) : (s.writeReg r v).draws = s.draws := rfl

/-! ## `setPc` -/

@[simp] theorem setPc_x (a : Word) : (s.setPc a).x = s.x := rfl
@[simp] theorem setPc_pc (a : Word) : (s.setPc a).pc = a := rfl
@[simp] theorem setPc_cond (a : Word) : (s.setPc a).cond = s.cond := rfl
@[simp] theorem setPc_run (a : Word) : (s.setPc a).run = s.run := rfl
@[simp] theorem setPc_mem (a : Word) : (s.setPc a).mem = s.mem := rfl
@[simp] theorem setPc_kbdQueue (a : Word) : (s.setPc a).kbdQueue = s.kbdQueue := rfl
@[simp] theorem setPc_out (a : Word) : (s.setPc a).out = s.out := rfl
@[simp] theorem setPc_wait (a : Word) : (s.setPc a).wait = s.wait := rfl
@[simp] theorem setPc_env (a : Word) : (s.setPc a).env = s.env := rfl
@[simp] theorem setPc_draws (a : Word) : (s.setPc a).draws = s.draws := rfl

/-! ## `setcc` -/

@[simp] theorem setcc_x (v : Word) : (s.setcc v).x = s.x := rfl
@[simp] theorem setcc_pc (v : Word) : (s.setcc v).pc = s.pc := rfl
@[simp] theorem setcc_cond (v : Word) : (s.setcc v).cond = condOf v := rfl
@[simp] theorem setcc_run (v : Word) : (s.setcc v).run = s.run := rfl
@[simp] theorem setcc_mem (v : Word) : (s.setcc v).mem = s.mem := rfl
@[simp] theorem setcc_kbdQueue (v : Word) : (s.setcc v).kbdQueue = s.kbdQueue := rfl
@[simp] theorem setcc_out (v : Word) : (s.setcc v).out = s.out := rfl
@[simp] theorem setcc_wait (v : Word) : (s.setcc v).wait = s.wait := rfl
@[simp] theorem setcc_env (v : Word) : (s.setcc v).env = s.env := rfl
@[simp] theorem setcc_draws (v : Word) : (s.setcc v).draws = s.draws := rfl

/-! ## `writeResult` -/

@[simp] theorem writeResult_x (r : Reg) (v : Word) : (s.writeResult r v).x = s.x.set r v := rfl
@[simp] theorem writeResult_pc (r : Reg) (v : Word) : (s.writeResult r v).pc = s.pc := rfl
@[simp] theorem writeResult_cond (r : Reg) (v : Word) : (s.writeResult r v).cond = condOf v := rfl
@[simp] theorem writeResult_run (r : Reg) (v : Word) : (s.writeResult r v).run = s.run := rfl
@[simp] theorem writeResult_mem (r : Reg) (v : Word) : (s.writeResult r v).mem = s.mem := rfl
@[simp] theorem writeResult_kbdQueue (r : Reg) (v : Word) : (s.writeResult r v).kbdQueue = s.kbdQueue := rfl
@[simp] theorem writeResult_out (r : Reg) (v : Word) : (s.writeResult r v).out = s.out := rfl
@[simp] theorem writeResult_wait (r : Reg) (v : Word) : (s.writeResult r v).wait = s.wait := rfl
@[simp] theorem writeResult_env (r : Reg) (v : Word) : (s.writeResult r v).env = s.env := rfl
@[simp] theorem writeResult_draws (r : Reg) (v : Word) : (s.writeResult r v).draws = s.draws := rfl

/-! ## `setCell` -/

@[simp] theorem setCell_x (a v : Word) : (s.setCell a v).x = s.x := rfl
@[simp] theorem setCell_pc (a v : Word) : (s.setCell a v).pc = s.pc := rfl
@[simp] theorem setCell_cond (a v : Word) : (s.setCell a v).cond = s.cond := rfl
@[simp] theorem setCell_run (a v : Word) : (s.setCell a v).run = s.run := rfl
@[simp] theorem setCell_mem (a v : Word) : (s.setCell a v).mem = s.mem.write a.toNat v := rfl
@[simp] theorem setCell_kbdQueue (a v : Word) : (s.setCell a v).kbdQueue = s.kbdQueue := rfl
@[simp] theorem setCell_out (a v : Word) : (s.setCell a v).out = s.out := rfl
@[simp] theorem setCell_wait (a v : Word) : (s.setCell a v).wait = s.wait := rfl
@[simp] theorem setCell_env (a v : Word) : (s.setCell a v).env = s.env := rfl
@[simp] theorem setCell_draws (a v : Word) : (s.setCell a v).draws = s.draws := rfl

/-! ## `memWrite` -/

@[simp] theorem memWrite_x (a v : Word) : (s.memWrite a v).x = s.x := rfl
@[simp] theorem memWrite_pc (a v : Word) : (s.memWrite a v).pc = s.pc := rfl
@[simp] theorem memWrite_cond (a v : Word) : (s.memWrite a v).cond = s.cond := rfl
@[simp] theorem memWrite_run (a v : Word) : (s.memWrite a v).run = s.run := rfl
@[simp] theorem memWrite_mem (a v : Word) : (s.memWrite a v).mem = s.mem.write a.toNat v := rfl
@[simp] theorem memWrite_kbdQueue (a v : Word) : (s.memWrite a v).kbdQueue = s.kbdQueue := rfl
@[simp] theorem memWrite_out (a v : Word) : (s.memWrite a v).out = s.out := rfl
@[simp] theorem memWrite_wait (a v : Word) : (s.memWrite a v).wait = s.wait := rfl
@[simp] theorem memWrite_env (a v : Word) : (s.memWrite a v).env = s.env := rfl
@[simp] theorem memWrite_draws (a v : Word) : (s.memWrite a v).draws = s.draws := rfl

/-! ## `consoleWrite` -/

@[simp] theorem consoleWrite_x (bs : List Byte) : (s.consoleWrite bs).x = s.x := rfl
@[simp] theorem consoleWrite_pc (bs : List Byte) : (s.consoleWrite bs).pc = s.pc := rfl
@[simp] theorem consoleWrite_cond (bs : List Byte) : (s.consoleWrite bs).cond = s.cond := rfl
@[simp] theorem consoleWrite_run (bs : List Byte) : (s.consoleWrite bs).run = s.run := rfl
@[simp] theorem consoleWrite_mem (bs : List Byte) : (s.consoleWrite bs).mem = s.mem := rfl
@[simp] theorem consoleWrite_kbdQueue (bs : List Byte) : (s.consoleWrite bs).kbdQueue = s.kbdQueue := rfl
@[simp] theorem consoleWrite_out (bs : List Byte) : (s.consoleWrite bs).out = s.out ++ bs := rfl
@[simp] theorem consoleWrite_wait (bs : List Byte) : (s.consoleWrite bs).wait = s.wait := rfl
@[simp] theorem consoleWrite_env (bs : List Byte) : (s.consoleWrite bs).env = s.env := rfl
@[simp] theorem consoleWrite_draws (bs : List Byte) : (s.consoleWrite bs).draws = s.draws := rfl

/-! ## `raise` -/

@[simp] theorem raise_x (c : FaultCause) : (s.raise c).x = s.x := rfl
@[simp] theorem raise_pc (c : FaultCause) : (s.raise c).pc = s.pc := rfl
@[simp] theorem raise_cond (c : FaultCause) : (s.raise c).cond = s.cond := rfl
@[simp] theorem raise_run (c : FaultCause) : (s.raise c).run = .faulted c := rfl
@[simp] theorem raise_mem (c : FaultCause) : (s.raise c).mem = s.mem := rfl
@[simp] theorem raise_kbdQueue (c : FaultCause) : (s.raise c).kbdQueue = s.kbdQueue := rfl
@[simp] theorem raise_out (c : FaultCause) : (s.raise c).out = s.out := rfl
@[simp] theorem raise_wait (c : FaultCause) : (s.raise c).wait = s.wait := rfl
@[simp] theorem raise_env (c : FaultCause) : (s.raise c).env = s.env := rfl
@[simp] theorem raise_draws (c : FaultCause) : (s.raise c).draws = s.draws := rfl

/-! ## `trapEntry` -/

@[simp] theorem trapEntry_x : (s.trapEntry).x = s.x.set 7 s.pc := rfl
@[simp] theorem trapEntry_pc : (s.trapEntry).pc = s.pc := rfl
@[simp] theorem trapEntry_cond : (s.trapEntry).cond = s.cond := rfl
@[simp] theorem trapEntry_run : (s.trapEntry).run = s.run := rfl
@[simp] theorem trapEntry_mem : (s.trapEntry).mem = s.mem := rfl
@[simp] theorem trapEntry_kbdQueue : (s.trapEntry).kbdQueue = s.kbdQueue := rfl
@[simp] theorem trapEntry_out : (s.trapEntry).out = s.out := rfl
@[simp] theorem trapEntry_wait : (s.trapEntry).wait = s.wait := rfl
@[simp] theorem trapEntry_env : (s.trapEntry).env = s.env := rfl
@[simp] theorem trapEntry_draws : (s.trapEntry).draws = s.draws := rfl

/-! ## `link` -/

@[simp] theorem link_x : (s.link).x = s.x.set 7 s.pc := rfl
@[simp] theorem link_pc : (s.link).pc = s.pc := rfl
@[simp] theorem link_cond : (s.link).cond = s.cond := rfl
@[simp] theorem link_run : (s.link).run = s.run := rfl
@[simp] theorem link_mem : (s.link).mem = s.mem := rfl
@[simp] theorem link_kbdQueue : (s.link).kbdQueue = s.kbdQueue := rfl
@[simp] theorem link_out : (s.link).out = s.out := rfl
@[simp] theorem link_wait : (s.link).wait = s.wait := rfl
@[simp] theorem link_env : (s.link).env = s.env := rfl
@[simp] theorem link_draws : (s.link).draws = s.draws := rfl

/-! ## `stopCore` -/

@[simp] theorem stopCore_x : (s.stopCore).x = s.x := rfl
@[simp] theorem stopCore_pc : (s.stopCore).pc = s.pc := rfl
@[simp] theorem stopCore_cond : (s.stopCore).cond = s.cond := rfl
@[simp] theorem stopCore_run : (s.stopCore).run = .stopped := rfl
@[simp] theorem stopCore_mem : (s.stopCore).mem = s.mem := rfl
@[simp] theorem stopCore_kbdQueue : (s.stopCore).kbdQueue = s.kbdQueue := rfl
@[simp] theorem stopCore_out : (s.stopCore).out = s.out := rfl
@[simp] theorem stopCore_wait : (s.stopCore).wait = none := rfl
@[simp] theorem stopCore_env : (s.stopCore).env = s.env := rfl
@[simp] theorem stopCore_draws : (s.stopCore).draws = s.draws := rfl

/-! ## Registers -/

@[simp] theorem readReg_writeReg_self (r : Reg) (v : Word) : (s.writeReg r v).readReg r = v := by
  simp [readReg, writeReg]

theorem readReg_writeReg_ne {r r' : Reg} (v : Word) (h : r' ≠ r) : (s.writeReg r v).readReg r' = s.readReg r' := by
  have : r.val ≠ r'.val := fun e => h (Fin.ext e.symm)
  simp [readReg, writeReg, this]

/-- A read after a write, in one equation. -/
theorem readReg_writeReg (r r' : Reg) (v : Word) :
    (s.writeReg r v).readReg r' = if r' = r then v else s.readReg r' := by
  split
  next h => subst h; simp
  next h => exact readReg_writeReg_ne s v h

@[simp] theorem readReg_writeResult_self (r : Reg) (v : Word) : (s.writeResult r v).readReg r = v :=
  readReg_writeReg_self s r v

theorem readReg_writeResult_ne {r r' : Reg} (v : Word) (h : r' ≠ r) : (s.writeResult r v).readReg r' = s.readReg r' :=
  readReg_writeReg_ne s v h

@[simp] theorem readReg_trapEntry_seven : s.trapEntry.readReg 7 = s.pc := readReg_writeReg_self s 7 s.pc

theorem readReg_trapEntry_ne {r : Reg} (h : r ≠ 7) : s.trapEntry.readReg r = s.readReg r :=
  readReg_writeReg_ne s s.pc h

@[simp] theorem readReg_trapEntry_zero : s.trapEntry.readReg 0 = s.readReg 0 := readReg_trapEntry_ne s (by decide)

@[simp] theorem readReg_link_seven : s.link.readReg 7 = s.pc := readReg_writeReg_self s 7 s.pc

theorem readReg_link_ne {r : Reg} (h : r ≠ 7) : s.link.readReg r = s.readReg r :=
  readReg_writeReg_ne s s.pc h

/-- A register read sees only the register file. -/
theorem readReg_congr {s t : State} (h : s.x = t.x) (r : Reg) : s.readReg r = t.readReg r := by
  simp [readReg, h]

@[simp] theorem readReg_setPc (r : Reg) (a : Word) : (s.setPc a).readReg r = s.readReg r := rfl
@[simp] theorem readReg_setcc (r : Reg) (v : Word) : (s.setcc v).readReg r = s.readReg r := rfl
@[simp] theorem readReg_setCell (r : Reg) (a v : Word) : (s.setCell a v).readReg r = s.readReg r := rfl
@[simp] theorem readReg_memWrite (r : Reg) (a v : Word) : (s.memWrite a v).readReg r = s.readReg r := rfl
@[simp] theorem readReg_consoleWrite (r : Reg) (bs : List Byte) : (s.consoleWrite bs).readReg r = s.readReg r := rfl
@[simp] theorem readReg_raise (r : Reg) (c : FaultCause) : (s.raise c).readReg r = s.readReg r := rfl
@[simp] theorem readReg_stopCore (r : Reg) : (s.stopCore).readReg r = s.readReg r := rfl

/-! ## Cells -/

@[simp] theorem cell_writeReg (ea : Word) (r : Reg) (v : Word) : (s.writeReg r v).cell ea = s.cell ea := rfl
@[simp] theorem cell_setPc (ea : Word) (a : Word) : (s.setPc a).cell ea = s.cell ea := rfl
@[simp] theorem cell_setcc (ea : Word) (v : Word) : (s.setcc v).cell ea = s.cell ea := rfl
@[simp] theorem cell_writeResult (ea : Word) (r : Reg) (v : Word) : (s.writeResult r v).cell ea = s.cell ea := rfl
@[simp] theorem cell_consoleWrite (ea : Word) (bs : List Byte) : (s.consoleWrite bs).cell ea = s.cell ea := rfl
@[simp] theorem cell_raise (ea : Word) (c : FaultCause) : (s.raise c).cell ea = s.cell ea := rfl
@[simp] theorem cell_trapEntry (ea : Word) : (s.trapEntry).cell ea = s.cell ea := rfl
@[simp] theorem cell_link (ea : Word) : (s.link).cell ea = s.cell ea := rfl
@[simp] theorem cell_stopCore (ea : Word) : (s.stopCore).cell ea = s.cell ea := rfl

/-- A cell read sees only the memory. -/
theorem cell_congr {s t : State} (h : s.mem = t.mem) (a : Word) : s.cell a = t.cell a := by
  simp [cell, h]

end Sys2Proof.Machine.State
end

