-- ==== Sys2Proof/Laws/Memory.lean ====
section
/-! SUPPORT. The laws of memory: a read after a write gives the value written, a write leaves every other cell alone
(spec/20_memory.md R53, R63), every write keeps the canonical form, and canonical memories that read alike are equal. -/

namespace Sys2Proof.Machine.Memory

@[simp] theorem read_nil (a : Nat) : Memory.read [] a = Memory.unlisted := rfl

theorem read_cons (k : Nat) (v : Word) (m : Memory) (a : Nat) :
    Memory.read ((k, v) :: m) a = if k = a then v else m.read a := rfl

theorem read_eq_unlisted {m : Memory} {a : Nat} (h : ∀ c ∈ m, c.1 ≠ a) : m.read a = Memory.unlisted := by
  induction m with
  | nil => rfl
  | cons c m ih =>
    obtain ⟨k, v⟩ := c
    have hk : k ≠ a := h (k, v) (by simp)
    rw [read_cons, if_neg hk]
    exact ih fun c hc => h c (List.mem_cons_of_mem _ hc)

theorem read_clear_self (m : Memory) (a : Nat) : (m.clear a).read a = Memory.unlisted :=
  read_eq_unlisted fun c hc => by simpa using (List.mem_filter.mp hc).2

theorem read_clear_ne (m : Memory) {a b : Nat} (h : b ≠ a) : (m.clear a).read b = m.read b := by
  induction m with
  | nil => rfl
  | cons c m ih =>
    obtain ⟨k, v⟩ := c
    have ih' : Memory.read (List.filter (fun c => c.1 != a) m) b = Memory.read m b := ih
    by_cases hk : k = a
    · subst hk
      simp [clear, read_cons, Ne.symm h, ih']
    · simp [clear, hk, read_cons, ih']

theorem read_place_self {m : Memory} {a : Nat} (v : Word) (h : ∀ c ∈ m, c.1 ≠ a) : (m.place a v).read a = v := by
  induction m with
  | nil => simp [place, read_cons]
  | cons c m ih =>
    obtain ⟨k, w⟩ := c
    have hk : k ≠ a := h (k, w) (by simp)
    unfold place
    split
    · simp [read_cons]
    · rw [read_cons, if_neg hk]
      exact ih fun c hc => h c (List.mem_cons_of_mem _ hc)

theorem read_place_ne (m : Memory) {a b : Nat} (v : Word) (h : b ≠ a) : (m.place a v).read b = m.read b := by
  induction m with
  | nil => simp [place, read_cons, Ne.symm h]
  | cons c m ih =>
    obtain ⟨k, w⟩ := c
    unfold place
    split
    · rw [read_cons, if_neg (Ne.symm h)]
    · rw [read_cons, read_cons, ih]

theorem clear_fst_ne (m : Memory) (a : Nat) : ∀ c ∈ m.clear a, c.1 ≠ a := fun c hc => by
  simpa using (List.mem_filter.mp hc).2

/-- A read after a write to the same cell gives the value written. -/
@[simp] theorem read_write_self (m : Memory) (a : Nat) (v : Word) : (m.write a v).read a = v := by
  unfold write
  split
  next h => rw [read_clear_self, h]
  next => exact read_place_self v (clear_fst_ne m a)

/-- A write leaves every other cell alone. -/
theorem read_write_ne (m : Memory) {a b : Nat} (v : Word) (h : b ≠ a) : (m.write a v).read b = m.read b := by
  unfold write
  split
  · exact read_clear_ne m h
  · rw [read_place_ne _ _ h, read_clear_ne m h]

theorem mem_place {m : Memory} {a : Nat} {v : Word} {c : Nat × Word} (h : c ∈ m.place a v) : c = (a, v) ∨ c ∈ m := by
  induction m with
  | nil => simpa [place] using h
  | cons d m ih =>
    obtain ⟨k, w⟩ := d
    unfold place at h
    split at h
    · simpa using h
    · rcases List.mem_cons.mp h with h | h
      · exact .inr (by simp [h])
      · exact (ih h).imp id (List.mem_cons_of_mem _)

theorem clear_wf {m : Memory} (h : m.wf) (a : Nat) : (m.clear a).wf :=
  ⟨h.1.filter _, fun c hc => h.2 c (List.mem_filter.mp hc).1⟩

theorem place_wf {m : Memory} (h : m.wf) {a : Nat} {v : Word} (ha : a < Config.memWords) (hv : v ≠ Memory.unlisted)
    (hn : ∀ c ∈ m, c.1 ≠ a) : (m.place a v).wf := by
  refine ⟨?_, fun c hc => (mem_place hc).elim (fun e => by subst e; exact ⟨ha, hv⟩) (h.2 c)⟩
  have hs := h.1
  clear h
  induction m with
  | nil => simp [place]
  | cons d m ih =>
    obtain ⟨k, w⟩ := d
    have hk : k ≠ a := hn (k, w) (by simp)
    obtain ⟨hkm, hm⟩ := List.pairwise_cons.mp hs
    unfold place
    split
    next hlt =>
      refine List.pairwise_cons.mpr ⟨fun c hc => ?_, hs⟩
      rcases List.mem_cons.mp hc with e | hc
      · subst e; exact hlt
      · exact Nat.lt_trans hlt (hkm c hc)
    next hge =>
      refine List.pairwise_cons.mpr ⟨fun c hc => ?_, ih (fun c hc => hn c (List.mem_cons_of_mem _ hc)) hm⟩
      rcases mem_place hc with e | hc
      · subst e; show k < a; omega
      · exact hkm c hc

/-- Every write keeps the canonical form. -/
theorem write_wf {m : Memory} (h : m.wf) {a : Nat} (ha : a < Config.memWords) (v : Word) : (m.write a v).wf := by
  unfold write
  split
  · exact clear_wf h a
  next hv => exact place_wf (clear_wf h a) ha hv (clear_fst_ne m a)

end Sys2Proof.Machine.Memory

namespace Sys2Proof.Machine.State

theorem toNat_lt_memWords (a : Word) : a.toNat < Config.memWords := a.isLt

/-- A store keeps the canonical form. -/
theorem setCell_wf {s : State} (h : s.mem.wf) (a v : Word) : (s.setCell a v).mem.wf :=
  Memory.write_wf h (toNat_lt_memWords a) v

theorem memWrite_wf {s : State} (h : s.mem.wf) (a v : Word) : (s.memWrite a v).mem.wf := setCell_wf h a v

@[simp] theorem cell_setCell_self (s : State) (a v : Word) : (s.setCell a v).cell a = v :=
  Memory.read_write_self _ _ _

theorem cell_setCell_ne (s : State) {a b : Word} (v : Word) (h : b ≠ a) : (s.setCell a v).cell b = s.cell b :=
  Memory.read_write_ne _ v fun e => h (BitVec.eq_of_toNat_eq e)

@[simp] theorem cell_memWrite_self (s : State) (a v : Word) : (s.memWrite a v).cell a = v := cell_setCell_self s a v

theorem cell_memWrite_ne (s : State) {a b : Word} (v : Word) (h : b ≠ a) : (s.memWrite a v).cell b = s.cell b :=
  cell_setCell_ne s v h

theorem reset_mem_wf : State.reset.mem.wf := by decide

end Sys2Proof.Machine.State
end

