-- ==== Sys2Proof/Laws/Ops.lean ====
section
/-! SUPPORT. One lemma per memory and console primitive that says once everything it can do (spec/20_memory.md R50 to R52,
spec/00_scope.md R14). -/

namespace Sys2Proof.Machine.State

/-! ## `memRead` -/

theorem memRead_status (s : State) : s.memRead Config.kbsrAddr = (s.readStatus, s) := by simp [memRead]

theorem memRead_data (s : State) : s.memRead Config.kbdrAddr = s.readData := by
  have : Config.kbdrAddr ≠ Config.kbsrAddr := by decide
  simp [memRead, this]

theorem memRead_plain (s : State) {a : Word} (h₁ : a ≠ Config.kbsrAddr) (h₂ : a ≠ Config.kbdrAddr) :
    s.memRead a = (s.cell a, s) := by
  simp [memRead, h₁, h₂]

/-- Everything a memory read does to the state: nothing, or it takes the head of the queue, or it draws a free Word. -/
theorem memRead_state (s : State) (a : Word) :
    (s.memRead a).2 = s ∨
    (a = Config.kbdrAddr ∧ ∃ c rest, s.kbdQueue = c :: rest ∧ s.memRead a = (Config.kbdrEncode c, { s with kbdQueue := rest })) ∨
    (a = Config.kbdrAddr ∧ s.kbdQueue = [] ∧ s.memRead a = (Config.freeWord s.draws, { s with draws := s.draws + 1 })) := by
  by_cases h₁ : a = Config.kbsrAddr
  · subst h₁; exact .inl (by rw [memRead_status])
  · by_cases h₂ : a = Config.kbdrAddr
    · subst h₂
      rw [memRead_data]
      cases hq : s.kbdQueue with
      | nil => exact .inr (.inr ⟨rfl, rfl, by simp [readData, consoleTakeChar, drawWord, hq]⟩)
      | cons c rest => exact .inr (.inl ⟨rfl, c, rest, rfl, by simp [readData, consoleTakeChar, hq]⟩)
    · exact .inl (by rw [memRead_plain s h₁ h₂])

/-- The state after a memory read is the state before it but for the queue and the count of draws. -/
theorem memRead_frame (s : State) (a : Word) :
    ∃ q n, (s.memRead a).2 = { s with kbdQueue := q, draws := n } ∧ q <:+ s.kbdQueue := by
  rcases memRead_state s a with h | ⟨-, c, rest, hq, h⟩ | ⟨-, hq, h⟩
  · exact ⟨s.kbdQueue, s.draws, h, List.suffix_refl _⟩
  · exact ⟨rest, s.draws, by rw [h], hq ▸ List.suffix_cons c rest⟩
  · exact ⟨s.kbdQueue, s.draws + 1, by rw [h], List.suffix_refl _⟩

@[simp] theorem memRead_x (s : State) (a : Word) : (s.memRead a).2.x = s.x := by
  obtain ⟨q, n, h, -⟩ := memRead_frame s a; rw [h]

@[simp] theorem memRead_pc (s : State) (a : Word) : (s.memRead a).2.pc = s.pc := by
  obtain ⟨q, n, h, -⟩ := memRead_frame s a; rw [h]

@[simp] theorem memRead_cond (s : State) (a : Word) : (s.memRead a).2.cond = s.cond := by
  obtain ⟨q, n, h, -⟩ := memRead_frame s a; rw [h]

@[simp] theorem memRead_run (s : State) (a : Word) : (s.memRead a).2.run = s.run := by
  obtain ⟨q, n, h, -⟩ := memRead_frame s a; rw [h]

@[simp] theorem memRead_mem (s : State) (a : Word) : (s.memRead a).2.mem = s.mem := by
  obtain ⟨q, n, h, -⟩ := memRead_frame s a; rw [h]

@[simp] theorem memRead_out (s : State) (a : Word) : (s.memRead a).2.out = s.out := by
  obtain ⟨q, n, h, -⟩ := memRead_frame s a; rw [h]

@[simp] theorem memRead_wait (s : State) (a : Word) : (s.memRead a).2.wait = s.wait := by
  obtain ⟨q, n, h, -⟩ := memRead_frame s a; rw [h]

@[simp] theorem memRead_env (s : State) (a : Word) : (s.memRead a).2.env = s.env := by
  obtain ⟨q, n, h, -⟩ := memRead_frame s a; rw [h]

@[simp] theorem readReg_memRead (s : State) (a : Word) (r : Reg) : (s.memRead a).2.readReg r = s.readReg r :=
  readReg_congr (memRead_x s a) r

@[simp] theorem cell_memRead (s : State) (a b : Word) : (s.memRead a).2.cell b = s.cell b :=
  cell_congr (memRead_mem s a) b

/-- A memory read never lengthens the queue. -/
theorem memRead_queue_suffix (s : State) (a : Word) : (s.memRead a).2.kbdQueue <:+ s.kbdQueue := by
  obtain ⟨q, n, h, hq⟩ := memRead_frame s a; rw [h]; exact hq

/-! ## `load` -/

@[simp] theorem load_eq (s : State) (dr : Reg) (ea : Word) :
    s.load dr ea = (s.memRead ea).2.writeResult dr (s.memRead ea).1 := rfl

/-! ## Console input -/

theorem inputChar_nil {s : State} (w : Wait) (h : s.kbdQueue = []) : s.inputChar w = { s with wait := some w } := by
  simp [inputChar, consoleTakeChar, h]

theorem inputChar_cons {s : State} (w : Wait) {c : Byte} {rest : List Byte} (h : s.kbdQueue = c :: rest) :
    s.inputChar w = State.finishInput { s with kbdQueue := rest } w c := by
  simp [inputChar, consoleTakeChar, h]

/-- `TRAP_INPUT_SETS_COND` is false (D15). -/
@[simp] theorem inputSetcc_eq (s : State) (v : Word) : s.inputSetcc v = s := rfl

theorem finishInput_getc (s : State) (c : Byte) :
    s.finishInput .getc c = { s.writeReg 0 (zext16 c) with wait := none } := rfl

theorem finishInput_inEcho (s : State) (c : Byte) :
    s.finishInput .inEcho c = { (s.consoleWrite [c]).writeReg 0 (zext16 c) with wait := none } := rfl

/-! ## Reserved opcodes -/

/-- `RESERVED_OPCODE_POLICY` is fault (D7). -/
@[simp] theorem reservedOpcode_eq (s : State) (w : Word) :
    s.reservedOpcode w = s.raise (.illegalOpcode w s.instrAddr) := rfl

end Sys2Proof.Machine.State
end

