-- ==== Sys2Proof/Laws/Scan.lean ====
section
/-! SUPPORT. The string scans of PUTS and PUTSP (spec/44_trap.md R165, R167): what they change, and that every one of them
ends within `scanBudget` reads, so that `Fault.scanWithoutEnd` is raised by no state. -/

namespace Sys2Proof.Machine

/-! ## One read of a scan -/

theorem putsScan_succ (n : Nat) (a : Word) (s : State) : putsScan (n + 1) a s =
    if (s.memRead a).1 = 0 then some (s.memRead a).2
    else putsScan n (a + 1) ((s.memRead a).2.consoleWrite [lowByte (s.memRead a).1]) := rfl

theorem putspScan_succ (n : Nat) (a : Word) (s : State) : putspScan (n + 1) a s =
    if lowByte (s.memRead a).1 = 0 then some (s.memRead a).2
    else if highByte (s.memRead a).1 = 0 then some ((s.memRead a).2.consoleWrite [lowByte (s.memRead a).1])
    else putspScan n (a + 1) ((s.memRead a).2.consoleWrite [lowByte (s.memRead a).1, highByte (s.memRead a).1]) := rfl

/-! ## Every scan ends -/

/-- How many reads lie between `a` and `KBSR_ADDR`. -/
def statusDistance (a : Word) : Nat := (Config.kbsrAddr - a).toNat

/-- A bound on the reads of a scan from `a` with `q` Bytes queued: to `KBSR_ADDR`, then one pass over memory for each
Byte that `KBDR_ADDR` has not yet taken off the queue. -/
def scanPotential (a : Word) (q : Nat) : Nat :=
  statusDistance a + 1 + (q - if statusDistance Config.kbdrAddr ≤ statusDistance a then 1 else 0) * Config.memWords

theorem scanPotential_le (a : Word) (q : Nat) : scanPotential a q ≤ (q + 1) * Config.memWords := by
  have h : statusDistance a < Config.memWords := (Config.kbsrAddr - a).isLt
  unfold scanPotential Config.memWords at *
  split <;> omega

theorem statusDistance_succ {a : Word} (h : a ≠ Config.kbsrAddr) : statusDistance (a + 1) + 1 = statusDistance a := by
  have : a.toNat ≠ Config.kbsrAddr.toNat := fun e => h (BitVec.eq_of_toNat_eq e)
  unfold statusDistance Config.kbsrAddr at *
  bv_omega

theorem statusDistance_kbsr : statusDistance Config.kbsrAddr = 0 := by decide

theorem statusDistance_after_kbsr : statusDistance (Config.kbsrAddr + 1) = 65535 := by decide

theorem statusDistance_inj {a b : Word} (h : statusDistance a = statusDistance b) : a = b := by
  unfold statusDistance Config.kbsrAddr at h
  bv_omega

/-- One read that does not end the scan lowers the bound. -/
theorem scanPotential_next {s : State} {a : Word} (h : a ≠ Config.kbsrAddr ∨ s.kbdQueue ≠ []) :
    scanPotential (a + 1) (s.memRead a).2.kbdQueue.length < scanPotential a s.kbdQueue.length := by
  have hd : statusDistance Config.kbdrAddr < 65536 := (Config.kbsrAddr - Config.kbdrAddr).isLt
  by_cases ha : a = Config.kbsrAddr
  · subst ha
    have hq : s.kbdQueue.length ≠ 0 := fun e => h.elim (fun h => h rfl) fun h => h (List.length_eq_zero_iff.mp e)
    have hd0 : statusDistance Config.kbdrAddr ≠ 0 := by decide
    rw [State.memRead_status]
    simp only [scanPotential, statusDistance_kbsr, statusDistance_after_kbsr, Config.memWords]
    split <;> split <;> omega
  · have hs := statusDistance_succ ha
    by_cases hk : a = Config.kbdrAddr
    · subst hk
      have hl : (s.memRead Config.kbdrAddr).2.kbdQueue.length = s.kbdQueue.length - 1 := by
        rw [State.memRead_data]
        cases hq : s.kbdQueue <;> simp [State.readData, State.consoleTakeChar, State.drawWord, hq]
      simp only [scanPotential, hl, Config.memWords]
      split <;> split <;> omega
    · have hne : statusDistance a ≠ statusDistance Config.kbdrAddr := fun e => hk (statusDistance_inj e)
      rw [State.memRead_plain s ha hk]
      simp only [scanPotential, Config.memWords]
      split <;> split <;> omega

/-- The status read of an empty queue gives the zero Word, which ends every scan. -/
theorem memRead_eq_zero_of_status {s : State} {a : Word} (h : ¬(a ≠ Config.kbsrAddr ∨ s.kbdQueue ≠ [])) :
    (s.memRead a).1 = 0 := by
  obtain ⟨rfl, hq⟩ : a = Config.kbsrAddr ∧ s.kbdQueue = [] := by simpa [not_or] using h
  rw [State.memRead_status]
  simp [State.readStatus, State.consoleKeyAvailable, hq]

theorem putsScan_some_of_potential (n : Nat) :
    ∀ (a : Word) (s : State), scanPotential a s.kbdQueue.length ≤ n → ∃ t, putsScan n a s = some t := by
  induction n with
  | zero => intro a s h; simp [scanPotential] at h
  | succ n ih =>
    intro a s h
    rw [putsScan_succ]
    split
    next => exact ⟨_, rfl⟩
    next hw =>
      have hr : a ≠ Config.kbsrAddr ∨ s.kbdQueue ≠ [] := by
        by_contra hr; exact hw (memRead_eq_zero_of_status hr)
      have := scanPotential_next hr
      exact ih _ _ (by rw [State.consoleWrite_kbdQueue]; omega)

theorem putspScan_some_of_potential (n : Nat) :
    ∀ (a : Word) (s : State), scanPotential a s.kbdQueue.length ≤ n → ∃ t, putspScan n a s = some t := by
  induction n with
  | zero => intro a s h; simp [scanPotential] at h
  | succ n ih =>
    intro a s h
    rw [putspScan_succ]
    split
    next => exact ⟨_, rfl⟩
    next hl =>
      split
      next => exact ⟨_, rfl⟩
      next =>
        have hr : a ≠ Config.kbsrAddr ∨ s.kbdQueue ≠ [] := by
          by_contra hr
          exact hl (by rw [memRead_eq_zero_of_status hr]; rfl)
        have := scanPotential_next hr
        exact ih _ _ (by rw [State.consoleWrite_kbdQueue]; omega)

/-- Every scan of PUTS ends within its budget (log entry 18). -/
theorem putsScan_ends (s : State) (a : Word) : ∃ t, putsScan s.scanBudget a s = some t :=
  putsScan_some_of_potential _ a s (scanPotential_le a _)

/-- Every scan of PUTSP ends within its budget (log entry 18). -/
theorem putspScan_ends (s : State) (a : Word) : ∃ t, putspScan s.scanBudget a s = some t :=
  putspScan_some_of_potential _ a s (scanPotential_le a _)

/-! ## What a scan changes -/

/-- `t` is `s` after some console output and some Bytes read off the queue. -/
def ScannedFrom (s t : State) : Prop :=
  ∃ q o d, t = { s with kbdQueue := q, out := s.out ++ o, draws := d } ∧ q <:+ s.kbdQueue

theorem ScannedFrom.of_memRead (s : State) (a : Word) : ScannedFrom s (s.memRead a).2 := by
  obtain ⟨q, n, h, hq⟩ := State.memRead_frame s a
  exact ⟨q, [], n, by rw [h]; simp, hq⟩

theorem ScannedFrom.consoleWrite {s t : State} (h : ScannedFrom s t) (bs : List Byte) :
    ScannedFrom s (t.consoleWrite bs) := by
  obtain ⟨q, o, d, rfl, hq⟩ := h
  exact ⟨q, o ++ bs, d, by simp [State.consoleWrite], hq⟩

theorem ScannedFrom.trans {s t u : State} (h : ScannedFrom s t) (h' : ScannedFrom t u) : ScannedFrom s u := by
  obtain ⟨q, o, d, rfl, hq⟩ := h
  obtain ⟨q', o', d', rfl, hq'⟩ := h'
  exact ⟨q', o ++ o', d', by simp, hq'.trans hq⟩

/-- PUTS changes nothing but the queue, the output and the count of draws (R161, R165). -/
theorem putsScan_frame (n : Nat) : ∀ {a : Word} {s t : State}, putsScan n a s = some t → ScannedFrom s t := by
  induction n with
  | zero => intro a s t h; simp [putsScan] at h
  | succ n ih =>
    intro a s t h
    rw [putsScan_succ] at h
    split at h
    next => exact Option.some.inj h ▸ .of_memRead s a
    next => exact ((ScannedFrom.of_memRead s a).consoleWrite _).trans (ih h)

/-- PUTSP changes nothing but the queue, the output and the count of draws (R161, R167). -/
theorem putspScan_frame (n : Nat) : ∀ {a : Word} {s t : State}, putspScan n a s = some t → ScannedFrom s t := by
  induction n with
  | zero => intro a s t h; simp [putspScan] at h
  | succ n ih =>
    intro a s t h
    rw [putspScan_succ] at h
    split at h
    next => exact Option.some.inj h ▸ .of_memRead s a
    next =>
      split at h
      next => exact Option.some.inj h ▸ (ScannedFrom.of_memRead s a).consoleWrite _
      next => exact ((ScannedFrom.of_memRead s a).consoleWrite _).trans (ih h)

/-- The two string routines answer a next state that the scan's frame describes. -/
theorem routinePuts_next (s : State) : ∃ t, routinePuts s = .next t ∧ ScannedFrom s t := by
  obtain ⟨t, ht⟩ := putsScan_ends s (s.readReg 0)
  exact ⟨t, by simp [routinePuts, ht, scanResult], putsScan_frame _ ht⟩

theorem routinePutsp_next (s : State) : ∃ t, routinePutsp s = .next t ∧ ScannedFrom s t := by
  obtain ⟨t, ht⟩ := putspScan_ends s (s.readReg 0)
  exact ⟨t, by simp [routinePutsp, ht, scanResult], putspScan_frame _ ht⟩

end Sys2Proof.Machine
end

