-- ==== Sys2Proof/Laws/Exec.lean ====
section
/-! SUPPORT. What the meanings with more than one case can do, said once: the two reads of LDI and STI
(spec/43_load_store.md R141, R145), the end of a console wait, and a TRAP routine (spec/44_trap.md R160 to R169). -/

namespace Sys2Proof.Machine

/-! ## LDI and STI -/

theorem execLdi_eq (dr : Reg) (offset : BitVec 9) (s : State) :
    execLdi dr offset s = .next ((s.indirect offset).2.load dr (s.indirect offset).1) := rfl

theorem execSti_eq (sr : Reg) (offset : BitVec 9) (s : State) :
    execSti sr offset s =
      .next ((s.indirect offset).2.memWrite (s.indirect offset).1 ((s.indirect offset).2.readReg sr)) := rfl

/-! ## Console input -/

/-- What `w` writes to the output when it gets the character `c`. -/
def Wait.echo (w : Wait) (c : Byte) : List Byte :=
  match w with
  | .getc => []
  | .inEcho => [c]

/-- A console input waits, or takes the oldest Byte (R162). -/
theorem State.inputChar_cases (s : State) (w : Wait) :
    (s.kbdQueue = [] ∧ s.inputChar w = { s with wait := some w }) ∨
    ∃ c rest, s.kbdQueue = c :: rest ∧
      s.inputChar w =
        { s with kbdQueue := rest, out := s.out ++ w.echo c, x := s.x.set 0 (zext16 c), wait := none } := by
  rcases h : s.kbdQueue with _ | ⟨c, rest⟩
  · exact .inl ⟨rfl, h ▸ State.inputChar_nil w h⟩
  · refine .inr ⟨c, rest, rfl, ?_⟩
    rw [State.inputChar_cons w h]
    cases w <;> simp [State.finishInput_getc, State.finishInput_inEcho, State.consoleWrite, State.writeReg, Wait.echo]

/-- What a console input leaves alone, whether it waits or completes. -/
theorem State.inputChar_frame (s : State) (w : Wait) :
    (s.inputChar w).pc = s.pc ∧ (s.inputChar w).cond = s.cond ∧ (s.inputChar w).run = s.run ∧
      (s.inputChar w).mem = s.mem ∧ (s.inputChar w).env = s.env ∧
      ∀ r, r ≠ 0 → (s.inputChar w).readReg r = s.readReg r := by
  obtain ⟨-, e⟩ | ⟨c, rest, -, e⟩ := s.inputChar_cases w <;> rw [e]
  · exact ⟨rfl, rfl, rfl, rfl, rfl, fun _ _ => rfl⟩
  · exact ⟨rfl, rfl, rfl, rfl, rfl, fun r hr => State.readReg_writeReg_ne s _ hr⟩

/-! ## TRAP routines -/

/-- Everything a TRAP routine, or an unknown code, can do to the state after `x[7] <- pc`. -/
theorem trapRoutineOf_cases {code : BitVec 8} {s t : State} (h : trapRoutineOf code s = .next t) :
    (Config.trapRoutine code = some .getc ∧ t = s.inputChar .getc) ∨
    (Config.trapRoutine code = some .inEcho ∧ t = s.inputChar .inEcho) ∨
    (Config.trapRoutine code = some .out ∧ t = s.consoleWrite [lowByte (s.readReg 0)]) ∨
    ((Config.trapRoutine code = some .puts ∨ Config.trapRoutine code = some .putsp) ∧ ScannedFrom s t) ∨
    (Config.trapRoutine code = some .halt ∧ t = { s.consoleWrite Config.haltNotice with run := .halted }) ∨
    (Config.trapRoutine code = none ∧ t = s.raise (.illegalTrap code s.instrAddr)) := by
  unfold trapRoutineOf at h
  split at h
  next e => exact .inl ⟨e, (Host.Outcome.next.inj h).symm⟩
  next e => exact .inr (.inr (.inl ⟨e, (Host.Outcome.next.inj h).symm⟩))
  next e =>
    obtain ⟨u, hu, hs⟩ := routinePuts_next s
    exact .inr (.inr (.inr (.inl ⟨.inl e, Host.Outcome.next.inj (hu.symm.trans h) ▸ hs⟩)))
  next e => exact .inr (.inl ⟨e, (Host.Outcome.next.inj h).symm⟩)
  next e =>
    obtain ⟨u, hu, hs⟩ := routinePutsp_next s
    exact .inr (.inr (.inr (.inl ⟨.inr e, Host.Outcome.next.inj (hu.symm.trans h) ▸ hs⟩)))
  next e => exact .inr (.inr (.inr (.inr (.inl ⟨e, (Host.Outcome.next.inj h).symm⟩))))
  next e => exact .inr (.inr (.inr (.inr (.inr ⟨e, (Host.Outcome.next.inj h).symm⟩))))

end Sys2Proof.Machine
end

