-- ==== Sys2Proof/Laws/PerInstr.lean ====
section
/-! SUPPORT. Statements made of each instruction. Family `EncodesInRow`: the Word of a well-formed instruction lies in the
instruction's own row of spec/opcode_table.json (spec/30_encoding.md R81, R88). -/

namespace Sys2Proof.Laws.EncodesInRow

/-- The encoded Word has the row's match under the row's mask. -/
def Statement (i : Instr) : Prop := i.wellFormed = true → encode i &&& i.rowMask = i.rowMatch

/-- A field that lies outside the bits of a mask leaves nothing under the mask. -/
theorem bitsAt_and_eq_zero {n : Nat} {lo : Nat} (f : BitVec n) {m : Word} (h : m.extractLsb' lo n = 0) :
    bitsAt lo f &&& m = 0 := by
  refine BitVec.eq_of_getLsbD_eq fun i hi => ?_
  have hm : i - lo < n → lo ≤ i → m.getLsbD i = false := fun h₁ h₂ => by
    have := congrArg (·.getLsbD (i - lo)) h
    simpa [h₁, Nat.add_sub_of_le h₂] using this
  by_cases h₂ : lo ≤ i
  · by_cases h₁ : i - lo < n
    · simp [BitVec.getLsbD_and, hm h₁ h₂]
    · simp [BitVec.getLsbD_and, BitVec.getLsbD_shiftLeft, BitVec.getLsbD_of_ge f (i - lo) (by omega)]
  · simp [BitVec.getLsbD_and, BitVec.getLsbD_shiftLeft, show i < lo by omega]

theorem or_and_right (a b m : Word) : (a ||| b) &&& m = (a &&& m) ||| (b &&& m) := by
  ext i hi
  simp [Bool.and_or_distrib_right]

theorem encode_in_row (i : Instr) : Statement i := by
  intro _
  cases i <;> first
    | rfl
    | (simp only [encode, encodeTrap, Instr.rowMask, or_and_right]
       simp (disch := decide) only [bitsAt_and_eq_zero]
       rfl)

theorem br (nzp : BitVec 3) (offset : BitVec 9) : Statement (.br nzp offset) := encode_in_row _
theorem addReg (dr sr1 sr2 : Reg) : Statement (.addReg dr sr1 sr2) := encode_in_row _
theorem addImm (dr sr1 : Reg) (imm5 : BitVec 5) : Statement (.addImm dr sr1 imm5) := encode_in_row _
theorem ld (dr : Reg) (offset : BitVec 9) : Statement (.ld dr offset) := encode_in_row _
theorem st (sr : Reg) (offset : BitVec 9) : Statement (.st sr offset) := encode_in_row _
theorem jsr (offset : BitVec 11) : Statement (.jsr offset) := encode_in_row _
theorem jsrr (base : Reg) : Statement (.jsrr base) := encode_in_row _
theorem andReg (dr sr1 sr2 : Reg) : Statement (.andReg dr sr1 sr2) := encode_in_row _
theorem andImm (dr sr1 : Reg) (imm5 : BitVec 5) : Statement (.andImm dr sr1 imm5) := encode_in_row _
theorem ldr (dr base : Reg) (offset : BitVec 6) : Statement (.ldr dr base offset) := encode_in_row _
theorem str (sr base : Reg) (offset : BitVec 6) : Statement (.str sr base offset) := encode_in_row _
theorem rti (rest : BitVec 12) : Statement (.rti rest) := encode_in_row _
theorem not (dr sr : Reg) : Statement (.not dr sr) := encode_in_row _
theorem ldi (dr : Reg) (offset : BitVec 9) : Statement (.ldi dr offset) := encode_in_row _
theorem sti (sr : Reg) (offset : BitVec 9) : Statement (.sti sr offset) := encode_in_row _
theorem jmp (base : Reg) : Statement (.jmp base) := encode_in_row _
theorem res (rest : BitVec 12) : Statement (.res rest) := encode_in_row _
theorem lea (dr : Reg) (offset : BitVec 9) : Statement (.lea dr offset) := encode_in_row _
theorem trap (code : BitVec 8) : Statement (.trap code) := encode_in_row _
theorem getc : Statement .getc := encode_in_row _
theorem out : Statement .out := encode_in_row _
theorem puts : Statement .puts := encode_in_row _
theorem in_ : Statement .in_ := encode_in_row _
theorem putsp : Statement .putsp := encode_in_row _
theorem halt : Statement .halt := encode_in_row _

end Sys2Proof.Laws.EncodesInRow
end

