-- ==== Sys2Proof/Laws/Step.lean ====
section
/-! SUPPORT. What a step can do, said once (spec/40_execution_cycle.md R110 to R113), the environment's delivery, the fetch,
and that `withFetchWord` places the very next instruction. -/

namespace Sys2Proof.Machine

namespace State

variable (s : State)

/-! ## The environment's move -/

/-- The delivery changes the queue and the coming moves only. -/
theorem deliver_frame : ∃ ks es, s.deliver = { s with kbdQueue := s.kbdQueue ++ ks, env := es } := by
  unfold deliver
  split
  next h => exact ⟨[], [], by simp [← h]⟩
  next e rest h => exact ⟨e.keys, rest, rfl⟩

@[simp] theorem deliver_x : s.deliver.x = s.x := by unfold deliver; split <;> rfl
@[simp] theorem deliver_pc : s.deliver.pc = s.pc := by unfold deliver; split <;> rfl
@[simp] theorem deliver_cond : s.deliver.cond = s.cond := by unfold deliver; split <;> rfl
@[simp] theorem deliver_run : s.deliver.run = s.run := by unfold deliver; split <;> rfl
@[simp] theorem deliver_mem : s.deliver.mem = s.mem := by unfold deliver; split <;> rfl
@[simp] theorem deliver_out : s.deliver.out = s.out := by unfold deliver; split <;> rfl
@[simp] theorem deliver_wait : s.deliver.wait = s.wait := by unfold deliver; split <;> rfl
@[simp] theorem deliver_draws : s.deliver.draws = s.draws := by unfold deliver; split <;> rfl

/-! ## The fetch -/

theorem fetch_word : s.fetch.1 = (s.memRead s.pc).1 := rfl

theorem fetch_state : s.fetch.2 = (s.memRead s.pc).2.setPc (s.pc + 1) := by simp [fetch]

@[simp] theorem fetch_pc : s.fetch.2.pc = s.pc + 1 := by simp [fetch_state]
@[simp] theorem fetch_x : s.fetch.2.x = s.x := by simp [fetch_state]
@[simp] theorem fetch_cond : s.fetch.2.cond = s.cond := by simp [fetch_state]
@[simp] theorem fetch_run : s.fetch.2.run = s.run := by simp [fetch_state]
@[simp] theorem fetch_mem : s.fetch.2.mem = s.mem := by simp [fetch_state]
@[simp] theorem fetch_out : s.fetch.2.out = s.out := by simp [fetch_state]
@[simp] theorem fetch_wait : s.fetch.2.wait = s.wait := by simp [fetch_state]
@[simp] theorem fetch_env : s.fetch.2.env = s.env := by simp [fetch_state]

end State

/-! ## The step -/

/-- Everything a step from `s` to `t` can be: a terminal state kept, a stop request taken, a waiting instruction gone on
with, or an instruction fetched and executed. -/
theorem step_next_cases {s t : State} (h : step s = .next t) :
    (s.run ≠ .running ∧ t = s) ∨
    (s.run = .running ∧ s.stopRequested = true ∧ t = s.deliver.stopCore) ∨
    (∃ w, s.run = .running ∧ s.stopRequested = false ∧ s.wait = some w ∧ t = s.deliver.resume w) ∨
    (s.run = .running ∧ s.stopRequested = false ∧ s.wait = none ∧
      exec (decode s.deliver.fetch.1) s.deliver.fetch.2 = .next t) := by
  unfold step terminalStep at h
  split at h
  next hr =>
    unfold runningStep at h
    split at h
    next hs => exact .inr (.inl ⟨hr, hs, (Host.Outcome.next.inj h).symm⟩)
    next hs =>
      have hs : s.stopRequested = false := by simpa using hs
      split at h
      next w hw => exact .inr (.inr (.inl ⟨w, hr, hs, hw, (Host.Outcome.next.inj h).symm⟩))
      next hw => exact .inr (.inr (.inr ⟨hr, hs, hw, h⟩))
  all_goals exact .inl ⟨by simp_all, (Host.Outcome.next.inj h).symm⟩

/-! ## `withFetchWord` -/

theorem readyToFetch_pc_plain (s : State) :
    s.readyToFetch.pc ≠ Config.kbsrAddr ∧ s.readyToFetch.pc ≠ Config.kbdrAddr := by
  have h₁ : Config.pcStart ≠ Config.kbsrAddr := by decide
  have h₂ : Config.pcStart ≠ Config.kbdrAddr := by decide
  unfold State.readyToFetch
  dsimp only
  split
  · exact ⟨h₁, h₂⟩
  next h => exact ⟨fun e => h (.inl e), fun e => h (.inr e)⟩

theorem readyToFetch_stopRequested (s : State) : s.readyToFetch.stopRequested = false := by
  unfold State.readyToFetch State.envWithoutStop State.stopRequested
  cases s.env <;> rfl

/-- The very next step from `s.withFetchWord 16 w` executes the instruction whose Word is `w`. -/
theorem step_withFetchWord (s : State) (w : Word) :
    step (s.withFetchWord 16 w.toNat) =
      exec (decode w) ((s.withFetchWord 16 w.toNat).deliver.setPc (s.readyToFetch.pc + 1)) := by
  have hw : BitVec.ofNat 16 (w.toNat % 2 ^ 16) = w := by
    rw [Nat.mod_eq_of_lt w.isLt, BitVec.ofNat_toNat, BitVec.setWidth_eq]
  obtain ⟨h₁, h₂⟩ := readyToFetch_pc_plain s
  have hpc : (s.withFetchWord 16 w.toNat).deliver.pc = s.readyToFetch.pc := by simp [State.withFetchWord]
  have hcell : (s.withFetchWord 16 w.toNat).deliver.cell s.readyToFetch.pc = w := by
    rw [State.cell_congr (State.deliver_mem _), State.withFetchWord, hw, State.cell_setCell_self]
  have hread := State.memRead_plain (s.withFetchWord 16 w.toNat).deliver h₁ h₂
  have hrun : (s.withFetchWord 16 w.toNat).run = .running := rfl
  have hwait : (s.withFetchWord 16 w.toNat).wait = none := rfl
  have hstop : (s.withFetchWord 16 w.toNat).stopRequested = false := readyToFetch_stopRequested s
  simp only [step, hrun, runningStep, hstop, hwait, State.fetch_word, State.fetch_state, hpc, hread, hcell]
  rfl

end Sys2Proof.Machine
end

