-- ==== Sys2Proof/Tests/Slice0.lean ====
section
/-! SUPPORT. The model's own tests. Every expected result is the spec's: spec/95_test_vectors.md (S1 to S11, V1 to V9) or
the example of the cited rule. Words of the decode tests are written out from Table F (spec/30_encoding.md R81). -/

namespace Sys2Proof.Tests

open Machine

/-! ## Well-formedness: the one check refuses a generic TRAP whose code names a routine -/

theorem test_wellFormed_unknown_trap : (Instr.trap 0x26).wellFormed = true := by decide
theorem test_wellFormed_refuses_known_trap : (Instr.trap 0x25).wellFormed = false := by decide

/-! ## Decoding: words written out bit by bit -/

theorem test_decode_br : decode 0b0000_010_000000100 = .br 0b010 4 := by decide
theorem test_decode_addReg : decode 0b0001_010_011_0_11_100 = .addReg 2 3 4 := by decide
theorem test_decode_addImm : decode 0b0001_000_001_1_00101 = .addImm 0 1 5 := by decide
theorem test_decode_ld : decode 0b0010_001_000000110 = .ld 1 6 := by decide
theorem test_decode_st : decode 0b0011_111_111111110 = .st 7 0x1FE := by decide
theorem test_decode_jsr : decode 0b0100_1_00000000100 = .jsr 4 := by decide
theorem test_decode_jsrr : decode 0b0100_0_11_010_010101 = .jsrr 2 := by decide
theorem test_decode_andReg : decode 0b0101_011_001_0_00_010 = .andReg 3 1 2 := by decide
theorem test_decode_andImm : decode 0b0101_011_001_1_10000 = .andImm 3 1 0b10000 := by decide
theorem test_decode_ldr : decode 0b0110_011_010_111111 = .ldr 3 2 0b111111 := by decide
theorem test_decode_str : decode 0b0111_001_110_000001 = .str 1 6 1 := by decide
theorem test_decode_rti : decode 0b1000_111111111111 = .rti 0xFFF := by decide
theorem test_decode_not : decode 0b1001_010_101_000000 = .not 2 5 := by decide
theorem test_decode_ldi : decode 0b1010_010_000001000 = .ldi 2 8 := by decide
theorem test_decode_sti : decode 0b1011_010_000001000 = .sti 2 8 := by decide
theorem test_decode_jmp : decode 0b1100_111_011_111111 = .jmp 3 := by decide
theorem test_decode_res : decode 0b1101_101010111100 = .res 0xABC := by decide
theorem test_decode_lea : decode 0b1110_110_000001001 = .lea 6 9 := by decide
theorem test_decode_trap : decode 0b1111_0000_00100110 = .trap 0x26 := by decide
theorem test_decode_getc : decode 0b1111_0000_00100000 = .getc := by decide
theorem test_decode_out : decode 0b1111_1010_00100001 = .out := by decide
theorem test_decode_puts : decode 0b1111_0000_00100010 = .puts := by decide
theorem test_decode_in : decode 0b1111_0000_00100011 = .in_ := by decide
theorem test_decode_putsp : decode 0b1111_0000_00100100 = .putsp := by decide
theorem test_decode_halt : decode 0b1111_1010_00100101 = .halt := by decide

theorem test_encode_conventional_fill :
    [encode (.not 2 5), encode (.jmp 7), encode (.jsrr 2), encode (.addReg 2 3 4), encode .halt]
      = [0x957F, 0xC1C0, 0x4080, 0x14C4, 0xF025] := by decide

/-! ## Extension and condition (V1, V2) -/

theorem test_sext : [sext16 (0x10 : BitVec 5), sext16 (0x20 : BitVec 6), sext16 (0x1FD : BitVec 9),
    sext16 (0x400 : BitVec 11), sext16 (0x0F : BitVec 5)] = [0xFFF0, 0xFFE0, 0xFFFD, 0xFC00, 0x000F] := by decide

theorem test_condOf : [condOf 0, condOf 1, condOf 0x7FFF, condOf 0x8000, condOf 0xFFFF]
    = [.zero, .positive, .positive, .negative, .negative] := by decide

/-! ## One step of each instruction -/

/-- The state after a step, when there is one. -/
def nextOf : Result → Option State
  | .next s => some s
  | .fault _ => none
  | .refused _ => none

/-- After reset, with the instruction Word `w` at 3000. -/
def start (w : Word) : State := State.reset.setCell 0x3000 w

/-- What a test looks at after one step. -/
def after {α : Type} (s : State) (look : State → α) : Option α := (nextOf (step s)).map look

theorem test_addReg_overflow : after (((start 0x14DC).writeReg 3 0x7FFF).writeReg 4 1)
    (fun t => (t.readReg 2, t.cond, t.pc)) = some (0x8000, .negative, 0x3001) := by decide
theorem test_addReg_doubles : after ((start 0x1B45).writeReg 5 0x4000) (fun t => (t.readReg 5, t.cond))
    = some (0x8000, .negative) := by decide
theorem test_addImm_source_example : after ((start 0x1065).writeReg 1 10) (fun t => (t.readReg 0, t.cond))
    = some (15, .positive) := by decide
theorem test_addImm_minus_one : after ((start 0x127F).writeReg 1 0x8000) (fun t => (t.readReg 1, t.cond))
    = some (0x7FFF, .positive) := by decide
theorem test_andReg : after (((start 0x5642).writeReg 1 0xF0F0).writeReg 2 0x0FF0) (fun t => (t.readReg 3, t.cond))
    = some (0x00F0, .positive) := by decide
theorem test_andImm_sign_extends : after ((start 0x567F).writeReg 1 0xABCD) (fun t => (t.readReg 3, t.cond))
    = some (0xABCD, .negative) := by decide
theorem test_not : after ((start 0x9540).writeReg 5 0x8000) (fun t => (t.readReg 2, t.cond))
    = some (0x7FFF, .positive) := by decide
theorem test_br_taken_on_zero : after (start 0x0404) (·.pc) = some 0x3005 := by decide
theorem test_br_not_taken : after ((start 0x0BFD).setcc 0) (·.pc) = some 0x3001 := by decide
theorem test_brn_mask : after ((start 0x08FF).setcc 0x8000) (·.pc) = some 0x3100 := by decide
theorem test_jmp : after ((start 0xCEFF).writeReg 3 0x4000) (fun t => (t.pc, t.readReg 7)) = some (0x4000, 0) := by
  decide
theorem test_jsr_back : after (start 0x4C00) (fun t => (t.readReg 7, t.pc)) = some (0x3001, 0x2C01) := by decide
theorem test_jsrr : after ((start 0x4080).writeReg 2 0x5000) (fun t => (t.readReg 7, t.pc)) = some (0x3001, 0x5000) := by
  decide
theorem test_jsrr_seven_falls_through : after ((start 0x41C0).writeReg 7 0x4000) (fun t => (t.readReg 7, t.pc))
    = some (0x3001, 0x3001) := by decide
theorem test_ld_itself : after (start 0x29FF) (fun t => (t.readReg 4, t.cond)) = some (0x29FF, .positive) := by decide
theorem test_ldi_keyboard_data : after { ((start 0xA001).setCell 0x3002 0xFE02).setCell 0xFE02 0x1234 with
    kbdQueue := [0x61, 0x62] } (fun t => (t.readReg 0, t.cond, t.kbdQueue)) = some (0x0061, .positive, [0x62]) := by
  decide
theorem test_ldi_keyboard_status : after { (start 0xA001).setCell 0x3002 0xFE00 with kbdQueue := [0x61] }
    (fun t => (t.readReg 0, t.cond, t.kbdQueue)) = some (0x8000, .negative, [0x61]) := by decide
theorem test_ldr_wraps_below : after (((start 0x66A0).writeReg 2 0x0010).setCell 0xFFF0 0x8000)
    (fun t => (t.readReg 3, t.cond)) = some (0x8000, .negative) := by decide
theorem test_lea_sets_flags : after { State.reset.setCell 0xFFFF 0xE1FF with pc := 0xFFFF }
    (fun t => (t.readReg 0, t.cond, t.pc)) = some (0xFFFF, .negative, 0x0000) := by decide
theorem test_st : after ((start 0x3FFE).writeReg 7 0x1234) (fun t => (t.cell 0x2FFF, t.cond)) = some (0x1234, .zero) := by
  decide
theorem test_sti : after (((start 0xB408).writeReg 2 0xFFF9).setCell 0x3009 0x300C)
    (fun t => (t.cell 0x300C, t.cell 0x3009)) = some (0xFFF9, 0x300C) := by decide
theorem test_str_wraps : after ((start 0x7B60).writeReg 5 0x0010) (·.cell 0xFFF0) = some 0x0010 := by decide

theorem test_getc : after { (start 0xF020).writeReg 0 0xFFFF with kbdQueue := [0x0A] }
    (fun t => (t.readReg 0, t.kbdQueue, t.out, t.readReg 7, t.cond)) = some (0x000A, [], [], 0x3001, .zero) := by decide
theorem test_getc_waits : after (start 0xF020) (fun t => (t.wait, t.readReg 7, t.pc, t.run))
    = some (some .getc, 0x3001, 0x3001, .running) := by decide
theorem test_out : after ((start 0xFA21).writeReg 0 0x1234) (fun t => (t.out, t.readReg 7)) = some ([0x34], 0x3001) := by
  decide
theorem test_in : after { start 0xF023 with kbdQueue := [0x7A] } (fun t => (t.readReg 0, t.kbdQueue, t.out))
    = some (0x007A, [], [0x7A]) := by decide
theorem test_puts_zero_low_byte : after (((((start 0xF022).writeReg 0 0x3003).setCell 0x3003 0x0141).setCell 0x3004
    0x4100).setCell 0x3005 0x0042) (·.out) = some [0x41, 0x00, 0x42] := by decide +kernel
theorem test_putsp_odd : after ((((((start 0xF024).writeReg 0 0x3003).setCell 0x3003 0x6548).setCell 0x3004
    0x6C6C).setCell 0x3005 0x006F).setCell 0x3006 0x4141) (·.out) = some [0x48, 0x65, 0x6C, 0x6C, 0x6F] := by
  decide +kernel
theorem test_halt : after (start 0xF025) (fun t => (t.out, t.run, t.readReg 7, t.pc))
    = some ([0x48, 0x41, 0x4C, 0x54, 0x0A], .halted, 0x3001, 0x3001) := by decide
theorem test_unknown_trap : after (start 0xF026) (fun t => (t.run, t.readReg 7, t.out))
    = some (.faulted (.illegalTrap 0x26 0x3000), 0x3001, []) := by decide
theorem test_rti : after (start 0x8FFF) (fun t => (t.run, t.pc, t.readReg 7))
    = some (.faulted (.illegalOpcode 0x8FFF 0x3000), 0x3001, 0) := by decide
theorem test_res : after (start 0xDABC) (fun t => (t.run, t.pc))
    = some (.faulted (.illegalOpcode 0xDABC 0x3000), 0x3001) := by decide

/-! ## The cycle, the host's interface (V8, V9, S9) -/

theorem test_zero_memory_is_nop : after State.reset (fun t => (t.pc, t.run)) = some (0x3001, .running) := by decide
theorem test_fetch_of_status_faults : after { State.reset with pc := 0xFE00, kbdQueue := [0x61] } (·.run)
    = some (.faulted (.illegalOpcode 0x8000 0xFE00)) := by decide
theorem test_stop_ends_a_wait : after { State.reset with wait := some .getc, pc := 0x3001, env := [⟨[], true⟩] }
    (fun t => (t.run, t.pc, t.wait)) = some (.stopped, 0x3001, none) := by decide
theorem test_arrival_ends_a_wait : after { State.reset with wait := some .inEcho, env := [⟨[0x7A], false⟩] }
    (fun t => (t.readReg 0, t.out, t.wait, t.kbdQueue)) = some (0x007A, [0x7A], none, []) := by decide
theorem test_halted_takes_no_step : nextOf (step { State.reset with run := .halted }) =
    some { State.reset with run := .halted } := rfl

theorem test_load_source_example : (nextOf (State.reset.loadImage [0x30, 0x00, 0x10, 0x25, 0xF0, 0x25])).map
    (fun t => (t.mem, t.pc)) = some ([(0x3000, 0x1025), (0x3001, 0xF025)], 0x3000) := by decide
theorem test_load_past_top_refused :
    State.reset.loadImage [0xFF, 0xFF, 0x12, 0x34, 0x56, 0x78] = .refused .imagePastTop := rfl
theorem test_load_odd_refused : State.reset.loadImage [0x30, 0x00, 0x10] = .refused .imageOddLength := rfl
theorem test_load_later_image_wins : (nextOf (boot [[0x40, 0x00, 0xAA, 0xAA], [0x40, 0x00, 0xBB, 0xBB]] [] [])).map
    (·.mem) = some [(0x4000, 0xBBBB)] := by decide

theorem test_withFetchWord : after (State.reset.withFetchWord 16 0x1025) (fun t => (t.readReg 0, t.pc))
    = some (5, 0x3001) := by decide
theorem test_decodeTableWord : (decodeTableWord 16 0xF025, decodeTableWord 16 0x1065) = (some .halt, some (.addImm 0 1 5)) := by
  decide

/-! ## Witnesses: for every obligation with hypotheses, a concrete case that meets all of them together -/

/-- A word meets the selecting condition of a decode clause. -/
def selects (w : Word) (o : Opcode) : Bool := field w 12 4 == Config.opcodeNumber o

theorem witness_DecodeOfEncode : (Instr.trap 0x26).wellFormed = true ∧ (Instr.addReg 7 0 7).wellFormed = true := by decide
theorem witness_DecoderAlgorithm_AddResult_AndResult :
    (field 0x14C4#16 12 4 = 0b0001 ∧ field 0x14C4#16 5 1 = 0) ∧ (field 0x1065#16 12 4 = 0b0001 ∧ field 0x1065#16 5 1 = 1) ∧
    (selects 0x5642 .and ∧ field 0x5642#16 5 1 = 0) ∧ (selects 0x5670 .and ∧ field 0x5670#16 5 1 = 1) ∧
    (selects 0x4804 .jsr ∧ field 0x4804#16 11 1 = 1) ∧ (selects 0x4080 .jsr ∧ field 0x4080#16 11 1 = 0) := by decide
theorem witness_opcode_clauses : selects 0x0404 .br ∧ selects 0x2206 .ld ∧ selects 0x3003 .st ∧ selects 0x66BF .ldr ∧
    selects 0x7381 .str ∧ selects 0x8FFF .rti ∧ selects 0x957F .not ∧ selects 0xA408 .ldi ∧ selects 0xB408 .sti ∧
    selects 0xC0C0 .jmp ∧ selects 0xDABC .res ∧ selects 0xEC09 .lea ∧ selects 0xF025 .trap := by decide
theorem witness_IgnoredBitsHaveNoEffect : 0x14C4#16 &&& (decode 0x14C4).usedBits = 0x14DC#16 &&& (decode 0x14C4).usedBits ∧
    0x8000#16 &&& (decode 0x8000).usedBits = 0x8FFF#16 &&& (decode 0x8000).usedBits := by decide
theorem witness_SignAndZeroExtension : (0b01111#5).getLsbD 4 = false ∧ (0b10000#5).getLsbD 4 = true ∧
    (0x400#11).getLsbD 10 = true := by decide
theorem witness_SetccRule : (0 : Word) = 0 ∧ 0x8000 ≤ (0x8000 : Word).toNat ∧ (0xFFFF : Word).toNat ≤ 0xFFFF ∧
    0x0001 ≤ (0x0001 : Word).toNat ∧ (0x7FFF : Word).toNat ≤ 0x7FFF := by decide
/-- For `OnlyTheListedInstructionsWriteCond`, `OnlyFourFormsWritePc`, `OnlyStoresWriteMemory`,
`OnlyTableRegistersAreWritten`, `ConsoleIsAppendOnlyAndFirstInFirstOut`: an instruction of each case answers. -/
theorem witness_exec_answers : (∃ t, exec (.addReg 1 2 3) State.reset = .next t) ∧
    (∃ t, exec (.jsrr 7) State.reset = .next t) ∧ (∃ t, exec (.sti 1 2) State.reset = .next t) ∧
    (∃ t, exec (.trap 0x26) State.reset = .next t) ∧ (∃ t, exec .in_ State.reset = .next t) :=
  ⟨⟨_, rfl⟩, ⟨_, rfl⟩, ⟨_, rfl⟩, ⟨_, rfl⟩, ⟨_, rfl⟩⟩
theorem witness_PlainAddr : PlainAddr 0xFDFF ∧ PlainAddr 0xFE01 ∧ PlainAddr 0xFE03 := by unfold PlainAddr; decide
/-- For `MemReadByCases`, `GetcResult`, `InResult`: both states of the queue. -/
theorem witness_queue : ({ State.reset with kbdQueue := [0x61] }).kbdQueue = 0x61 :: [] ∧ State.reset.kbdQueue = [] := by
  decide
theorem witness_CanonicalMemories : Memory.wf [(0, 1), (0xFFFF, 0x8000)] := by decide
theorem witness_DeviceCellsAreInvisible : AgreeOffDevices State.reset (State.reset.setCell Config.kbsrAddr 0x1234) :=
  ⟨rfl, rfl, rfl, rfl, rfl, rfl, rfl, rfl, rfl, fun _ h _ => (State.cell_setCell_ne _ _ h).symm⟩

/-- `x[0]` at a two-Word string and its terminator. -/
def stringState (w₁ w₂ last : Word) : State :=
  (((State.reset.writeReg 0 0x300B).setCell 0x300B w₁).setCell 0x300C w₂).setCell 0x300D last

theorem witness_PutsWritesTheString :
    (∀ i, i < 3 → (stringState 0x48 0x69 0).stringAddr i ≠ Config.kbsrAddr ∧
      (stringState 0x48 0x69 0).stringAddr i ≠ Config.kbdrAddr) ∧
    (stringState 0x48 0x69 0).cell ((stringState 0x48 0x69 0).stringAddr 0) = 0x48 ∧
    (stringState 0x48 0x69 0).cell ((stringState 0x48 0x69 0).stringAddr 1) = 0x69 ∧
    (stringState 0x48 0x69 0).cell ((stringState 0x48 0x69 0).stringAddr 2) = 0 := by decide
theorem witness_PutspWritesThePackedString :
    (stringState 0x6548 0x6C6C 0x006F).cell ((stringState 0x6548 0x6C6C 0x006F).stringAddr 0)
      = bitsAt 8 0x65#8 ||| bitsAt 0 0x48#8 ∧
    (stringState 0x6548 0x6C6C 0x006F).cell ((stringState 0x6548 0x6C6C 0x006F).stringAddr 1)
      = bitsAt 8 0x6C#8 ||| bitsAt 0 0x6C#8 ∧
    (stringState 0x6548 0x6C6C 0x006F).cell ((stringState 0x6548 0x6C6C 0x006F).stringAddr 2) = 0x006F ∧
    field 0x006F#16 8 8 = 0 ∧ field 0x4100#16 0 8 = 0 := by decide
theorem witness_TrapResult : (0x1F#8).toNat < 0x20 ∧ (0x00#8).toNat < 0x20 ∧ 0x25 < (0x26#8).toNat ∧ 0x25 < (0xFF#8).toNat := by
  decide
theorem witness_EnvironmentMoves : State.reset.env = [] ∧ ({ State.reset with env := [⟨[0x61], false⟩] }).env
    = ⟨[0x61], false⟩ :: [] := by decide
theorem witness_StepRunsTheDecodedInstruction : State.reset.run = .running ∧ State.reset.stopRequested = false ∧
    State.reset.wait = none ∧ State.reset.deliver.memRead State.reset.pc = (0, State.reset) ∧ decode 0 = .br 0 0 := by
  decide
theorem witness_TerminalStatesStay : ({ State.reset with run := .stopped }).run ≠ .running := by decide
theorem witness_StopRequestEndsTheRun : ({ State.reset with env := [⟨[], true⟩] }).run = .running ∧
    ({ State.reset with env := [⟨[], true⟩] }).stopRequested = true := by decide
theorem witness_WaitEndsWithTheFirstCharacter :
    ({ State.reset with wait := some .getc }).deliver.kbdQueue = [] ∧
    ({ State.reset with wait := some .inEcho, env := [⟨[0x7A], false⟩] }).deliver.kbdQueue = 0x7A :: [] ∧
    ({ State.reset with wait := some .inEcho, env := [⟨[0x7A], false⟩] }).stopRequested = false := by decide
theorem witness_WaysOutOfRunning : ∃ t, (start 0xF025).run = .running ∧ step (start 0xF025) = .next t ∧ t.run ≠ .running :=
  ⟨_, rfl, rfl, by decide⟩
theorem witness_StepKeepsTheInvariant : ∃ t, (start 0xF020).Inv ∧ step (start 0xF020) = .next t :=
  ⟨_, ⟨by decide, trivial, fun h => absurd rfl h⟩, rfl⟩
theorem witness_ResetState : ∃ t, boot [[0x30, 0x00, 0x10, 0x25]] [0x61] [] = .next t := ⟨_, rfl⟩
theorem witness_ImagePlacement : (0xFFFF : Word).toNat + [(0x1234 : Word)].length ≤ 65536 := by decide
theorem witness_UncoveredImagesAreRefused : ([] : List Byte).length < 2 ∧ [(0x30 : Byte)].length < 2 ∧
    2 ≤ [(0x30 : Byte), 0, 0x10].length ∧ [(0x30 : Byte), 0, 0x10].length % 2 = 1 ∧
    65536 < (0xFFFF : Word).toNat + [(0x1234 : Word), 0x5678].length := by decide
theorem witness_LaterImageWins : (0x4000 : Word).toNat + [(0xAAAA : Word), 0xCCCC].length ≤ 65536 ∧
    (0x4001 : Word).toNat + [(0xBBBB : Word)].length ≤ 65536 := by decide

end Sys2Proof.Tests
end

section
/-! Sign and zero extension (spec/00_scope.md R10): the value and the bits of `sext16` and `zext16`, for a field of any
width that fits a Word. The sign bit is written `msb`; `BitVec.msb_eq_getLsbD_last` ties it to R10's `f[n-1]`. -/

namespace Sys2Proof.Machine

/-- Sign-extending a clear sign bit keeps the value. -/
theorem toNat_sext16_of_msb_false {n : Nat} (hn : n ≤ 16) {f : BitVec n} (hf : f.msb = false) :
    (sext16 f).toNat = f.toNat := by
  rw [sext16, BitVec.signExtend_eq_setWidth_of_msb_false hf, BitVec.toNat_setWidth_of_le hn]

/-- R10's formula for a set sign bit: the bits above the field add `2^16 - 2^n`. -/
theorem toNat_sext16_of_msb_true {n : Nat} (hn : n ≤ 16) {f : BitVec n} (hf : f.msb = true) :
    (sext16 f).toNat = f.toNat + (65536 - 2 ^ n) := by
  rw [sext16, BitVec.toNat_signExtend, BitVec.toNat_setWidth_of_le hn, if_pos hf]

/-- Below the field's width a bit of `sext16 f` is the field's, from there on it is the sign bit. -/
theorem getLsbD_sext16 {n : Nat} (f : BitVec n) {i : Nat} (hi : i < 16) :
    (sext16 f).getLsbD i = if i < n then f.getLsbD i else f.msb := by
  rw [sext16, BitVec.getLsbD_signExtend, decide_eq_true hi, Bool.true_and]

theorem toNat_zext16 {n : Nat} (hn : n ≤ 16) (f : BitVec n) : (zext16 f).toNat = f.toNat :=
  BitVec.toNat_setWidth_of_le hn

/-- Settles O6: R10 holds at every width that fits a Word, so at the four widths of the instruction fields. -/
theorem signAndZeroExtension : Obligations.SignAndZeroExtension := by
  unfold Obligations.SignAndZeroExtension
  intro n hwidth f
  have hn : n ≤ 16 := by omega
  rw [← BitVec.msb_eq_getLsbD_last]
  exact ⟨toNat_sext16_of_msb_false hn, toNat_sext16_of_msb_true hn, fun _ => getLsbD_sext16 f, toNat_zext16 hn f⟩

end Sys2Proof.Machine
end

section
/-! The condition register (spec/10_state.md R27): the condition of a Word by the unsigned ranges. -/

namespace Sys2Proof.Machine

@[simp] theorem condOf_zero : condOf 0 = .zero := rfl

theorem condOf_of_ge {v : Word} (hv : 0x8000 ≤ v.toNat) : condOf v = .negative := by
  have hne : v ≠ 0 := by rintro rfl; simp at hv
  have hmsb : v.msb = true := BitVec.msb_eq_true_iff_two_mul_ge.mpr (by omega)
  rw [condOf, if_neg hne, if_pos hmsb]

theorem condOf_of_pos_of_le {v : Word} (hpos : 0x0001 ≤ v.toNat) (hle : v.toNat ≤ 0x7FFF) : condOf v = .positive := by
  have hne : v ≠ 0 := by rintro rfl; simp at hpos
  have hmsb : v.msb = false := BitVec.msb_eq_false_iff_two_mul_lt.mpr (by omega)
  rw [condOf, if_neg hne, hmsb, if_neg Bool.false_ne_true]

/-- What `setcc` leaves in `cond` is what the frames ask of it. -/
theorem condFollows_condOf (v : Word) : CondFollows (condOf v) v :=
  ⟨fun hv => BitVec.eq_of_toNat_eq (y := 0) hv ▸ condOf_zero, condOf_of_ge,
    fun ⟨hpos, hle⟩ => condOf_of_pos_of_le hpos hle⟩

/-- Settles O7: R27's three ranges; `setcc` is an update of `cond` alone. -/
theorem setccRule : Obligations.SetccRule := by
  unfold Obligations.SetccRule
  intro s v
  obtain ⟨hzero, hnegative, hpositive⟩ := condFollows_condOf v
  exact ⟨fun hv => hzero (congrArg BitVec.toNat hv), fun hge _ => hnegative hge,
    fun hpos hle => hpositive ⟨hpos, hle⟩, rfl⟩

end Sys2Proof.Machine
end

section
/-! What `pc` is after an instruction (spec/10_state.md R24): the branch test and the link of the forms that write it, and
the TRAP routines, none of which does (spec/44_trap.md R161). -/

namespace Sys2Proof.Machine

/-! ## The forms that write `pc` -/

/-- BR's test as R130 writes it. -/
theorem State.branchTaken_iff (s : State) (nzp : BitVec 3) : s.branchTaken nzp = true ↔ nzp &&& s.cond.mask ≠ 0 := by
  simp [branchTaken]

/-- A register read after the link write, in one equation (R134). -/
theorem State.readReg_link (s : State) (r : Reg) : s.link.readReg r = if r = 7 then s.pc else s.readReg r :=
  readReg_writeReg s 7 r s.pc

/-! ## TRAP -/

/-- Every TRAP is `x[7] <- pc` and then the routine its code selects (R160), whether the decoder names the routine or
not. -/
theorem exec_decodeTrap (code : BitVec 8) (s : State) : exec (decodeTrap code) s = trapRoutineOf code s.trapEntry := by
  rcases hcode : Config.trapRoutine code with _ | r
  · rw [decodeTrap, hcode]
    rfl
  · rw [decodeTrap, trapRoutineOf, hcode]
    cases r <;> rfl

theorem ScannedFrom.pc_eq {s t : State} (h : ScannedFrom s t) : t.pc = s.pc := by
  obtain ⟨q, o, d, rfl, -⟩ := h
  rfl

/-- No routine and no unknown code writes `pc` (R161, R169). -/
theorem trapRoutineOf_pc {code : BitVec 8} {s t : State} (h : trapRoutineOf code s = .next t) : t.pc = s.pc := by
  obtain ⟨-, rfl⟩ | ⟨-, rfl⟩ | ⟨-, rfl⟩ | ⟨-, hscan⟩ | ⟨-, rfl⟩ | ⟨-, rfl⟩ := trapRoutineOf_cases h
  · exact (s.inputChar_frame .getc).1
  · exact (s.inputChar_frame .inEcho).1
  · rfl
  · exact hscan.pc_eq
  · rfl
  · rfl

theorem exec_decodeTrap_pc {code : BitVec 8} {s t : State} (h : exec (decodeTrap code) s = .next t) : t.pc = s.pc :=
  trapRoutineOf_pc (s := s.trapEntry) (exec_decodeTrap code s ▸ h)

/-! ## Every instruction -/

/-- Settles O17: by cases on the instruction, the four forms that write `pc`, the TRAPs, and the others, whose updates
and reads keep it. -/
theorem onlyFourFormsWritePc : Obligations.OnlyFourFormsWritePc := by
  unfold Obligations.OnlyFourFormsWritePc
  refine ⟨State.fetch_pc, fun i s t h => ?_⟩
  cases i
  case br nzp off =>
    obtain rfl := Host.Outcome.next.inj h
    exact (apply_ite State.pc ..).trans (if_congr (s.branchTaken_iff nzp) rfl rfl)
  case jmp | jsr => obtain rfl := Host.Outcome.next.inj h; rfl
  case jsrr base =>
    obtain rfl := Host.Outcome.next.inj h
    exact s.readReg_link base
  case trap code => exact trapRoutineOf_pc (s := s.trapEntry) h
  case getc => exact exec_decodeTrap_pc (code := Config.trapCode .getc) h
  case out => exact exec_decodeTrap_pc (code := Config.trapCode .out) h
  case puts => exact exec_decodeTrap_pc (code := Config.trapCode .puts) h
  case in_ => exact exec_decodeTrap_pc (code := Config.trapCode .inEcho) h
  case putsp => exact exec_decodeTrap_pc (code := Config.trapCode .putsp) h
  case halt => exact exec_decodeTrap_pc (code := Config.trapCode .halt) h
  case ld | ldr => obtain rfl := Host.Outcome.next.inj h; simp
  case ldi dr off =>
    obtain rfl := Host.Outcome.next.inj ((execLdi_eq dr off s).symm.trans h)
    simp [State.indirect]
  case sti sr off =>
    obtain rfl := Host.Outcome.next.inj ((execSti_eq sr off s).symm.trans h)
    simp [State.indirect]
  case addReg | addImm | andReg | andImm | not | lea | st | str | rti | res =>
    obtain rfl := Host.Outcome.next.inj h
    rfl

end Sys2Proof.Machine
end

section
/-! ADD, AND and NOT (spec/41_operate.md R120 to R124). The Words each opcode stands for, in lemmas that read the opcode
from OPCODE_MAP; and that a result write is the operate frame, whatever the result, so that an instruction only has to say
which Word it writes. -/

namespace Sys2Proof

/-! ## The Words of ADD, AND and NOT (R90) -/

theorem opcodeOf_eq_of_eq_opcodeNumber {n : BitVec 4} {o : Opcode} (h : n = Config.opcodeNumber o) :
    Config.opcodeOf n = o :=
  h ▸ opcodeOf_opcodeNumber o

theorem decode_of_opcode_add {w : Word} (hop : Config.opcodeOf (field w 12 4) = .add) :
    decode w = if field w 5 1 = 0 then .addReg (regField w 9) (regField w 6) (regField w 0)
      else .addImm (regField w 9) (regField w 6) (field w 0 5) := by
  rw [decode, hop]

theorem decode_of_opcode_and {w : Word} (hop : Config.opcodeOf (field w 12 4) = .and) :
    decode w = if field w 5 1 = 0 then .andReg (regField w 9) (regField w 6) (regField w 0)
      else .andImm (regField w 9) (regField w 6) (field w 0 5) := by
  rw [decode, hop]

theorem decode_of_opcode_not {w : Word} (hop : Config.opcodeOf (field w 12 4) = .not) :
    decode w = .not (regField w 9) (regField w 6) := by
  rw [decode, hop]

end Sys2Proof

namespace Sys2Proof.Machine

/-! ## The result write -/

/-- Writing a result to `x[DR]` and its condition to `cond` changes nothing else (R27, R28). -/
theorem State.resultOnly_writeResult (s : State) (dr : Reg) (v : Word) : ResultOnly s (s.writeResult dr v) dr v := by
  have hregs : SameRegsBut s (s.writeResult dr v) [dr] := fun r hr =>
    s.readReg_writeResult_ne v (List.ne_of_not_mem_cons hr)
  exact ⟨s.readReg_writeResult_self dr v, condFollows_condOf v, hregs, rfl, fun _ => rfl, ⟨rfl, rfl, rfl⟩, rfl, rfl, rfl⟩

/-- `~v = 0xFFFF - v` (R124). -/
theorem not_eq_ofNat_sub (v : Word) : ~~~v = BitVec.ofNat 16 (0xFFFF - v.toNat) := by
  bv_omega

/-! ## The obligations -/

/-- Settles O10: bit 5 picks the form, and the sum modulo 65536 is `BitVec`'s own. -/
theorem addResult : Obligations.AddResult := by
  unfold Obligations.AddResult
  have hadd {n : BitVec 4} (hop : n = 0b0001) : Config.opcodeOf n = .add := opcodeOf_eq_of_eq_opcodeNumber hop
  refine ⟨fun w hop hbit => ?_, fun w hop hbit => ?_, fun dr sr1 sr2 s => ?_, fun dr sr1 imm5 s => ?_⟩
  · rw [decode_of_opcode_add (hadd hop), if_pos hbit]
  · rw [decode_of_opcode_add (hadd hop), if_neg (by simp [hbit])]
  · rw [← BitVec.add_def]
    exact ⟨_, rfl, s.resultOnly_writeResult dr _⟩
  · rw [← BitVec.add_def]
    exact ⟨_, rfl, s.resultOnly_writeResult dr _⟩

/-- Settles O11: bit 5 picks the form, and the Word written is the conjunction of the sources bit by bit. -/
theorem andResult : Obligations.AndResult := by
  unfold Obligations.AndResult
  refine ⟨fun w hop hbit => ?_, fun w hop hbit => ?_, fun dr sr1 sr2 s => ?_, fun dr sr1 imm5 s => ?_⟩
  · rw [decode_of_opcode_and (opcodeOf_eq_of_eq_opcodeNumber hop), if_pos hbit]
  · rw [decode_of_opcode_and (opcodeOf_eq_of_eq_opcodeNumber hop), if_neg (by simp [hbit])]
  · exact ⟨_, _, rfl, s.resultOnly_writeResult dr _, fun _ => BitVec.getLsbD_and⟩
  · exact ⟨_, _, rfl, s.resultOnly_writeResult dr _, fun _ => BitVec.getLsbD_and⟩

/-- Settles O12: the one form of NOT writes the complement, which is `0xFFFF - x[SR]`. -/
theorem notResult : Obligations.NotResult := by
  unfold Obligations.NotResult
  refine ⟨fun w hop => decode_of_opcode_not (opcodeOf_eq_of_eq_opcodeNumber hop), fun dr sr s => ?_⟩
  rw [← not_eq_ofNat_sub]
  exact ⟨_, rfl, s.resultOnly_writeResult dr _⟩

end Sys2Proof.Machine
end

section
/-! BR, JMP, JSR and JSRR (spec/42_control.md R130 to R135). The Words each opcode stands for, in lemmas that read the
opcode from OPCODE_MAP; and that a `pc` write is the jump frame and a `pc` write after the link is the call frame,
whatever the target, so that an instruction only has to say which target it writes. -/

namespace Sys2Proof

/-! ## The Words of BR, JMP, JSR and JSRR (R90) -/

theorem decode_of_opcode_br {w : Word} (hop : Config.opcodeOf (field w 12 4) = .br) :
    decode w = .br (field w 9 3) (field w 0 9) := by
  rw [decode, hop]

theorem decode_of_opcode_jmp {w : Word} (hop : Config.opcodeOf (field w 12 4) = .jmp) :
    decode w = .jmp (regField w 6) := by
  rw [decode, hop]

theorem decode_of_opcode_jsr {w : Word} (hop : Config.opcodeOf (field w 12 4) = .jsr) :
    decode w = if field w 11 1 = 1 then .jsr (field w 0 11) else .jsrr (regField w 6) := by
  rw [decode, hop]

end Sys2Proof

namespace Sys2Proof.Machine

/-! ## The `pc` write, alone and after the link -/

/-- Writing `pc` changes nothing else. -/
theorem State.jumpOnly_setPc (s : State) (target : Word) : JumpOnly s (s.setPc target) target :=
  ⟨rfl, fun _ _ => rfl, rfl, fun _ => rfl, ⟨rfl, rfl, rfl⟩, rfl, rfl, rfl⟩

/-- Linking in `x[7]` and then writing `pc` changes nothing else. -/
theorem State.callOnly_link_setPc (s : State) (target : Word) : CallOnly s (s.link.setPc target) s.pc target := by
  have hregs : SameRegsBut s (s.link.setPc target) [7] := fun _ hr => s.readReg_link_ne (List.ne_of_not_mem_cons hr)
  exact ⟨s.readReg_link_seven, rfl, hregs, rfl, fun _ => rfl, ⟨rfl, rfl, rfl⟩, rfl, rfl, rfl⟩

/-- A branch writes `pc` in both cases: one that is not taken writes the incremented `pc` back (R130). -/
theorem execBr_eq (nzp : BitVec 3) (off : BitVec 9) (s : State) :
    execBr nzp off s = .next (s.setPc (if nzp &&& s.cond.mask ≠ 0 then s.pcRelative off else s.pc)) := by
  rw [execBr, apply_ite s.setPc]
  exact congrArg Host.Outcome.next (if_congr (s.branchTaken_iff nzp) rfl rfl)

/-! ## The obligations -/

/-- Settles O13: a branch is a `pc` write, of the target or of the `pc` it found. -/
theorem branchResult : Obligations.BranchResult := by
  unfold Obligations.BranchResult
  exact ⟨fun w hop => decode_of_opcode_br (opcodeOf_eq_of_eq_opcodeNumber hop),
    fun nzp off s => ⟨_, execBr_eq nzp off s, s.jumpOnly_setPc _⟩⟩

/-- Settles O14: the target is whatever `x[BaseR]` holds, `x[7]` included. -/
theorem jumpResult : Obligations.JumpResult := by
  unfold Obligations.JumpResult
  exact ⟨fun w hop => decode_of_opcode_jmp (opcodeOf_eq_of_eq_opcodeNumber hop),
    fun base s => ⟨_, rfl, s.jumpOnly_setPc _⟩⟩

/-- Settles O15: bit 11 set picks JSR, whose target is relative to the `pc` that it links. -/
theorem subroutineCallResult : Obligations.SubroutineCallResult := by
  unfold Obligations.SubroutineCallResult
  refine ⟨fun w hop hbit => ?_, fun off s => ⟨_, rfl, s.callOnly_link_setPc _⟩⟩
  rw [decode_of_opcode_jsr (opcodeOf_eq_of_eq_opcodeNumber hop), if_pos hbit]

/-- Settles O16: bit 11 clear picks JSRR, which reads `x[BaseR]` after the link write, so BaseR 7 reads the link
(R134). -/
theorem subroutineCallThroughRegisterResult : Obligations.SubroutineCallThroughRegisterResult := by
  unfold Obligations.SubroutineCallThroughRegisterResult
  refine ⟨fun w hop hbit => ?_, fun base s => ?_⟩
  · rw [decode_of_opcode_jsr (opcodeOf_eq_of_eq_opcodeNumber hop), if_neg (by simp [hbit])]
  · rw [← s.readReg_link base]
    exact ⟨_, rfl, s.callOnly_link_setPc _⟩

end Sys2Proof.Machine
end

section
/-! LD, LDI, LDR, LEA, ST, STI and STR (spec/43_load_store.md R140 to R147). The Words each opcode stands for, in lemmas
that read the opcode from OPCODE_MAP; and that a read leaves the load and store frames to what follows it, so that an
instruction only has to say which addresses it reads and which address it writes. -/

namespace Sys2Proof

/-! ## The Words of the loads and stores (R90) -/

theorem decode_of_opcode_ld {w : Word} (hop : Config.opcodeOf (field w 12 4) = .ld) :
    decode w = .ld (regField w 9) (field w 0 9) := by
  rw [decode, hop]

theorem decode_of_opcode_ldi {w : Word} (hop : Config.opcodeOf (field w 12 4) = .ldi) :
    decode w = .ldi (regField w 9) (field w 0 9) := by
  rw [decode, hop]

theorem decode_of_opcode_ldr {w : Word} (hop : Config.opcodeOf (field w 12 4) = .ldr) :
    decode w = .ldr (regField w 9) (regField w 6) (field w 0 6) := by
  rw [decode, hop]

theorem decode_of_opcode_lea {w : Word} (hop : Config.opcodeOf (field w 12 4) = .lea) :
    decode w = .lea (regField w 9) (field w 0 9) := by
  rw [decode, hop]

theorem decode_of_opcode_st {w : Word} (hop : Config.opcodeOf (field w 12 4) = .st) :
    decode w = .st (regField w 9) (field w 0 9) := by
  rw [decode, hop]

theorem decode_of_opcode_sti {w : Word} (hop : Config.opcodeOf (field w 12 4) = .sti) :
    decode w = .sti (regField w 9) (field w 0 9) := by
  rw [decode, hop]

theorem decode_of_opcode_str {w : Word} (hop : Config.opcodeOf (field w 12 4) = .str) :
    decode w = .str (regField w 9) (regField w 6) (field w 0 6) := by
  rw [decode, hop]

end Sys2Proof

namespace Sys2Proof.Machine

/-! ## A read before a load or a store -/

/-- A result write takes nothing from the console. -/
theorem ResultOnly.loadOnly {s t : State} {dr : Reg} {v : Word} (h : ResultOnly s t dr v) : LoadOnly s s t dr v := by
  obtain ⟨hdr, hcond, hregs, hpc, hcells, ⟨hqueue, hout, hdraws⟩, hcontrol⟩ := h
  exact ⟨hdr, hcond, hregs, hpc, hcells, hcontrol, hout, hqueue, hdraws⟩

/-- A load after a read is a load from the state before it: the read changes the queue and the draws alone, and the frame
takes those from `r`. -/
theorem LoadOnly.of_memRead {s r t : State} {a v : Word} {dr : Reg} (h : LoadOnly (s.memRead a).2 r t dr v) :
    LoadOnly s r t dr v := by
  obtain ⟨queue, draws, hread, -⟩ := s.memRead_frame a
  rw [hread] at h
  exact h

/-- A store after a read is a store from the state before it, as `LoadOnly.of_memRead`. -/
theorem StoreOnly.of_memRead {s r t : State} {a ea v : Word} (h : StoreOnly (s.memRead a).2 r t ea v) :
    StoreOnly s r t ea v := by
  obtain ⟨queue, draws, hread, -⟩ := s.memRead_frame a
  rw [hread] at h
  exact h

/-- A load is the read of its address and the result write of the Word read. -/
theorem State.loadOnly_load (s : State) (dr : Reg) (ea : Word) :
    LoadOnly s (s.memRead ea).2 (s.load dr ea) dr (s.memRead ea).1 :=
  ((s.memRead ea).2.resultOnly_writeResult dr _).loadOnly.of_memRead

/-- A memory write changes the one cell, at a device address too (R53). -/
theorem State.storeOnly_memWrite (s : State) (ea v : Word) : StoreOnly s s (s.memWrite ea v) ea v :=
  ⟨s.cell_memWrite_self ea v, fun _ hne => s.cell_memWrite_ne v hne, fun _ _ => rfl, rfl, rfl, ⟨rfl, rfl, rfl⟩, rfl, rfl,
    rfl⟩

/-! ## The obligations -/

/-- Settles O24: LD is the load from the PC-relative address. -/
theorem loadResult : Obligations.LoadResult := by
  unfold Obligations.LoadResult
  exact ⟨fun w hop => decode_of_opcode_ld (opcodeOf_eq_of_eq_opcodeNumber hop),
    fun dr off s => ⟨_, rfl, s.loadOnly_load dr _⟩⟩

/-- Settles O25: LDI is a load from the state and the address that the pointer read gives. -/
theorem loadIndirectResult : Obligations.LoadIndirectResult := by
  unfold Obligations.LoadIndirectResult
  refine ⟨fun w hop => decode_of_opcode_ldi (opcodeOf_eq_of_eq_opcodeNumber hop), fun dr off s => ?_⟩
  exact ⟨_, execLdi_eq dr off s, ((s.indirect off).2.loadOnly_load dr _).of_memRead⟩

/-- Settles O26: LDR is the load from the base-plus-offset address, formed before DR is written. -/
theorem loadBaseOffsetResult : Obligations.LoadBaseOffsetResult := by
  unfold Obligations.LoadBaseOffsetResult
  exact ⟨fun w hop => decode_of_opcode_ldr (opcodeOf_eq_of_eq_opcodeNumber hop),
    fun dr base off s => ⟨_, rfl, s.loadOnly_load dr _⟩⟩

/-- Settles O27: LEA is a result write of the PC-relative address itself. -/
theorem loadEffectiveAddressResult : Obligations.LoadEffectiveAddressResult := by
  unfold Obligations.LoadEffectiveAddressResult
  exact ⟨fun w hop => decode_of_opcode_lea (opcodeOf_eq_of_eq_opcodeNumber hop),
    fun dr off s => ⟨_, rfl, s.resultOnly_writeResult dr _⟩⟩

/-- Settles O28: ST is the memory write at the PC-relative address. -/
theorem storeResult : Obligations.StoreResult := by
  unfold Obligations.StoreResult
  exact ⟨fun w hop => decode_of_opcode_st (opcodeOf_eq_of_eq_opcodeNumber hop),
    fun sr off s => ⟨_, rfl, s.storeOnly_memWrite _ _⟩⟩

/-- Settles O29: STI is a memory write after the pointer read, which leaves `x[SR]` as it was. -/
theorem storeIndirectResult : Obligations.StoreIndirectResult := by
  unfold Obligations.StoreIndirectResult
  refine ⟨fun w hop => decode_of_opcode_sti (opcodeOf_eq_of_eq_opcodeNumber hop), fun sr off s => ?_⟩
  rw [← s.readReg_memRead (s.pc + sext16 off) sr]
  exact ⟨_, execSti_eq sr off s, ((s.indirect off).2.storeOnly_memWrite _ _).of_memRead⟩

/-- Settles O30: STR is the memory write at the base-plus-offset address. -/
theorem storeBaseOffsetResult : Obligations.StoreBaseOffsetResult := by
  unfold Obligations.StoreBaseOffsetResult
  exact ⟨fun w hop => decode_of_opcode_str (opcodeOf_eq_of_eq_opcodeNumber hop),
    fun sr base off s => ⟨_, rfl, s.storeOnly_memWrite _ _⟩⟩

end Sys2Proof.Machine
end

section
/-! OUT (spec/44_trap.md R160, R161, R164): what the trap entry leaves unchanged, and the value of the Byte written. -/

namespace Sys2Proof.Machine

/-! ## The trap entry -/

/-- `x[7] <- pc` changes no other general register (R160). -/
theorem State.sameRegsBut_trapEntry (s : State) : SameRegsBut s s.trapEntry [7] := fun _ hr =>
  s.readReg_trapEntry_ne (List.ne_of_not_mem_cons hr)

/-- The trap entry alone is already within the frame of a TRAP (R160, R161). -/
theorem State.trapFrame_trapEntry (s : State) : TrapFrame s s.trapEntry :=
  ⟨s.readReg_trapEntry_seven, rfl, rfl, s.cell_trapEntry, rfl⟩

/-! ## Console output -/

/-- Console output after a state keeps the frame that state is in: a TRAP may write any Bytes (R14, R161). -/
theorem TrapFrame.consoleWrite {s t : State} (h : TrapFrame s t) (bs : List Byte) : TrapFrame s (t.consoleWrite bs) :=
  h

theorem SameRegsBut.consoleWrite {s t : State} {rs : List Reg} (h : SameRegsBut s t rs) (bs : List Byte) :
    SameRegsBut s (t.consoleWrite bs) rs :=
  h

/-- `w[7:0]` as a number. -/
theorem toNat_lowByte (w : Word) : (lowByte w).toNat = w.toNat % 256 :=
  BitVec.extractLsb'_toNat 0 8 w

/-! ## OUT -/

/-- OUT writes the low Byte of the `x[0]` it was entered with: the trap entry writes `x[7]` alone (R160, R164). -/
theorem exec_out (s : State) : exec .out s = .next (s.trapEntry.consoleWrite [lowByte (s.readReg 0)]) := by
  rw [← s.readReg_trapEntry_zero]
  rfl

/-- Settles O34: OUT is the trap entry and then one Byte of output, and neither touches anything else. -/
theorem outResult : Obligations.OutResult := by
  unfold Obligations.OutResult
  intro s
  have hframe := s.trapFrame_trapEntry.consoleWrite [lowByte (s.readReg 0)]
  have hregs := s.sameRegsBut_trapEntry.consoleWrite [lowByte (s.readReg 0)]
  exact ⟨_, _, exec_out s, hframe, hregs, rfl, toNat_lowByte _, rfl, rfl, rfl, rfl⟩

end Sys2Proof.Machine
end

section
/-! Reset and image load (spec/70_reset_and_hazards.md R230 to R239): what a big-endian stream reads as, where placed
Words land at addresses modulo 65536, and that a load of any images writes memory alone. -/

namespace Sys2Proof.Machine

/-! ## The Words of a stream (R57, R233) -/

theorem bigEndianWord_highByte_lowByte (w : Word) : bigEndianWord (highByte w) (lowByte w) = w := by
  have hhigh : (highByte w).toNat = w.toNat / 256 := by
    rw [highByte, BitVec.extractLsb'_toNat, Nat.shiftRight_eq_div_pow]
    omega
  rw [bigEndianWord, hhigh, toNat_lowByte, Nat.div_add_mod', BitVec.ofNat_toNat, BitVec.setWidth_eq]

/-- A stream of Words reads back as those Words. -/
theorem bigEndianWords_flatMap (ws : List Word) :
    bigEndianWords (ws.flatMap fun w => [highByte w, lowByte w]) = some ws := by
  induction ws with
  | nil => rfl
  | cons w ws ih =>
    simp only [List.flatMap_cons, List.cons_append, List.nil_append, bigEndianWords, ih, Option.map_some,
      bigEndianWord_highByte_lowByte]

/-- Loading a well-formed stream is placing its Words from its origin. -/
theorem State.loadImage_imageStream (s : State) (origin : Word) (ws : List Word) :
    s.loadImage (imageStream origin ws) = s.placeImage origin ws := by
  have hwords : bigEndianWords (imageStream origin ws) = some (origin :: ws) := bigEndianWords_flatMap (origin :: ws)
  simp only [imageStream, List.flatMap_cons, List.cons_append, List.nil_append] at hwords ⊢
  rw [State.loadImage, hwords]

/-! ## Placed Words (R233) -/

theorem State.placeWords_cons (s : State) (a w : Word) (ws : List Word) :
    s.placeWords a (w :: ws) = (s.setCell a w).placeWords (a + 1) ws := rfl

/-- The address of a later Word, counted from the next address. -/
theorem add_ofNat_succ (a : Word) (i : Nat) : a + BitVec.ofNat 16 (i + 1) = a + 1 + BitVec.ofNat 16 i := by
  bv_omega

/-- Placing Words writes memory alone. -/
theorem State.placeWords_frame (s : State) (a : Word) (ws : List Word) :
    ∃ m, s.placeWords a ws = { s with mem := m } := by
  induction ws generalizing s a with
  | nil => exact ⟨s.mem, rfl⟩
  | cons w ws ih => exact ih (s.setCell a w) (a + 1)

/-- A cell that no placed Word's address names keeps its value. -/
theorem State.cell_placeWords_of_ne (s : State) (a : Word) {b : Word} (ws : List Word)
    (h : ∀ i < ws.length, b ≠ a + BitVec.ofNat 16 i) : (s.placeWords a ws).cell b = s.cell b := by
  induction ws generalizing s a with
  | nil => rfl
  | cons w ws ih =>
    have hhead : b ≠ a := by simpa using h 0 (by simp)
    have htail : ∀ i < ws.length, b ≠ a + 1 + BitVec.ofNat 16 i := fun i hi =>
      add_ofNat_succ a i ▸ h (i + 1) (Nat.succ_lt_succ hi)
    rw [placeWords_cons, ih _ _ htail, cell_setCell_ne s w hhead]

/-- Words that fit in the address space do not overlap, so each is found at its place. -/
theorem State.cell_placeWords_getElem (s : State) (a : Word) {ws : List Word} (hlen : ws.length ≤ 65536) {i : Nat}
    (hi : i < ws.length) : (s.placeWords a ws).cell (a + BitVec.ofNat 16 i) = ws[i] := by
  induction ws generalizing s a i with
  | nil => exact absurd hi (Nat.not_lt_zero i)
  | cons w ws ih =>
    rw [List.length_cons] at hlen hi
    cases i with
    | zero =>
      have hlater : ∀ j < ws.length, a ≠ a + 1 + BitVec.ofNat 16 j := fun j hj => by bv_omega
      rw [BitVec.add_zero, placeWords_cons, cell_placeWords_of_ne _ _ ws hlater, cell_setCell_self,
        List.getElem_cons_zero]
    | succ i =>
      rw [placeWords_cons, add_ofNat_succ, ih _ _ (by omega) (by omega), List.getElem_cons_succ]

/-! ## Placed images (R233, R235) -/

theorem State.placeImage_of_fits (s : State) {origin : Word} {ws : List Word} (h : origin.toNat + ws.length ≤ 65536) :
    s.placeImage origin ws = .next (s.placeWords origin ws) :=
  if_pos h

/-- `IMAGE_OVERFLOW = refuse` (R235, D22). -/
theorem State.placeImage_of_not_fits (s : State) {origin : Word} {ws : List Word}
    (h : ¬ origin.toNat + ws.length ≤ 65536) : s.placeImage origin ws = .refused .imagePastTop :=
  if_neg h

/-! ## A load writes memory alone (R233, R236) -/

theorem State.placeImage_frame {s t : State} {origin : Word} {ws : List Word} (h : s.placeImage origin ws = .next t) :
    ∃ m, t = { s with mem := m } := by
  by_cases hfits : origin.toNat + ws.length ≤ 65536
  · rw [s.placeImage_of_fits hfits] at h
    obtain rfl := Host.Outcome.next.inj h
    exact s.placeWords_frame origin ws
  · rw [s.placeImage_of_not_fits hfits] at h
    contradiction

/-- An image that is loaded was placed. -/
theorem State.loadImage_cases {s t : State} {stream : List Byte} (h : s.loadImage stream = .next t) :
    ∃ origin ws, bigEndianWords stream = some (origin :: ws) ∧ s.placeImage origin ws = .next t := by
  unfold loadImage at h
  split at h
  case h_3 =>
    split at h
    case h_3 origin ws hwords => exact ⟨origin, ws, hwords, h⟩
    all_goals contradiction
  all_goals contradiction

theorem State.loadImage_frame {s t : State} {stream : List Byte} (h : s.loadImage stream = .next t) :
    ∃ m, t = { s with mem := m } := by
  obtain ⟨origin, ws, -, hplace⟩ := loadImage_cases h
  exact placeImage_frame hplace

/-- When several images are loaded, the first is, and then the others from the state it leaves. -/
theorem State.loadImages_cons_cases {s t : State} {stream : List Byte} {rest : List (List Byte)}
    (h : s.loadImages (stream :: rest) = .next t) :
    ∃ u, s.loadImage stream = .next u ∧ u.loadImages rest = .next t := by
  unfold loadImages at h
  split at h
  case h_1 u hfirst => exact ⟨u, hfirst, h⟩
  all_goals contradiction

theorem State.loadImages_frame {s t : State} {images : List (List Byte)} (h : s.loadImages images = .next t) :
    ∃ m, t = { s with mem := m } := by
  induction images generalizing s with
  | nil => exact ⟨s.mem, (Host.Outcome.next.inj h).symm⟩
  | cons stream rest ih =>
    obtain ⟨u, hfirst, hrest⟩ := loadImages_cons_cases h
    obtain ⟨m, rfl⟩ := loadImage_frame hfirst
    obtain ⟨m', ht⟩ := ih hrest
    exact ⟨m', ht⟩

/-! ## Reset (R230) -/

@[simp] theorem State.readReg_reset (r : Reg) : State.reset.readReg r = 0 :=
  Vector.getElem_replicate r.isLt

@[simp] theorem State.cell_reset (a : Word) : State.reset.cell a = 0 := rfl

/-- A boot is reset but for the memory of the images and the launch inputs (R230, R231, R239). -/
theorem boot_frame {images : List (List Byte)} {keys : List Byte} {env : List EnvMove} {t : State}
    (h : boot images keys env = .next t) : ∃ m, t = { State.reset with mem := m, kbdQueue := keys, env := env } :=
  State.loadImages_frame (s := State.reset.withConsole keys env) h

/-! ## The obligations -/

/-- Settles O51: `hostReset` keeps of its argument only the console, which none of the five reads, and the images' load
changes only memory. -/
theorem resetState : Obligations.ResetState := by
  unfold Obligations.ResetState
  refine ⟨fun s => ⟨State.readReg_reset, rfl, rfl, rfl, State.cell_reset⟩, State.readReg_reset, rfl, rfl, rfl,
    State.cell_reset, fun images keys env t h => ?_⟩
  obtain ⟨m, rfl⟩ := boot_frame h
  exact ⟨State.readReg_reset, rfl, rfl, rfl⟩

/-- Settles O52: the stream reads back as its origin and Words, which fit and so are placed without wrapping. -/
theorem imagePlacement : Obligations.ImagePlacement := by
  unfold Obligations.ImagePlacement
  intro s origin ws hfits
  have hload : s.loadImage (imageStream origin ws) = .next (s.placeWords origin ws) := by
    rw [s.loadImage_imageStream, s.placeImage_of_fits hfits]
  refine ⟨_, hload, fun i hi => ?_, fun a ha => ?_, ?_⟩
  · exact s.cell_placeWords_getElem origin (by omega) hi
  · exact s.cell_placeWords_of_ne origin ws fun i hi => by bv_omega
  · obtain ⟨m, hm⟩ := s.placeWords_frame origin ws
    rw [hm]

end Sys2Proof.Machine
end

section
/-! The decoder, the encoder and the masks of Table F (spec/30_encoding.md R81 to R90), field by field: the round trip,
the row every Word lies in, the decoder by cases, and the bits that have no effect. -/

namespace Sys2Proof

/-! ## The Words of the reserved opcodes and of TRAP (R90) -/

theorem decode_of_opcode_rti {w : Word} (hop : Config.opcodeOf (field w 12 4) = .rti) :
    decode w = .rti (field w 0 12) := by
  rw [decode, hop]

theorem decode_of_opcode_res {w : Word} (hop : Config.opcodeOf (field w 12 4) = .res) :
    decode w = .res (field w 0 12) := by
  rw [decode, hop]

theorem decode_of_opcode_trap {w : Word} (hop : Config.opcodeOf (field w 12 4) = .trap) :
    decode w = decodeTrap (field w 0 8) := by
  rw [decode, hop]

/-- A code that names no routine decodes to the generic TRAP (R169; log entry 31). -/
theorem decodeTrap_of_unknown {code : BitVec 8} (h : Config.trapRoutine code = none) :
    decodeTrap code = .trap code := by
  rw [decodeTrap, h]

/-! ## Decoding an encoded instruction -/

/-- The opcode of an instruction, by Table O (R88). -/
def Instr.opcode : Instr → Opcode
  | .br _ _ => .br
  | .addReg _ _ _ | .addImm _ _ _ => .add
  | .ld _ _ => .ld
  | .st _ _ => .st
  | .jsr _ | .jsrr _ => .jsr
  | .andReg _ _ _ | .andImm _ _ _ => .and
  | .ldr _ _ _ => .ldr
  | .str _ _ _ => .str
  | .rti _ => .rti
  | .not _ _ => .not
  | .ldi _ _ => .ldi
  | .sti _ _ => .sti
  | .jmp _ => .jmp
  | .res _ => .res
  | .lea _ _ => .lea
  | .trap _ | .getc | .out | .puts | .in_ | .putsp | .halt => .trap

theorem opcodeOf_encode (i : Instr) : Config.opcodeOf (field (encode i) 12 4) = i.opcode := by
  have hfield : field (encode i) 12 4 = Config.opcodeNumber i.opcode := by
    cases i <;>
      simp (disch := decide) only [encode, encodeTrap, field_or, field_opBits_opcode, field_bitsAt_of_disjoint,
        BitVec.ofNat_eq_ofNat, BitVec.or_zero, Instr.opcode]
  rw [hfield, opcodeOf_opcodeNumber]

theorem decode_encodeTrap (code : BitVec 8) : decode (encodeTrap code) = decodeTrap code := by
  have hop : Config.opcodeOf (field (encodeTrap code) 12 4) = .trap := opcodeOf_encode (.trap code)
  have hcode : field (encodeTrap code) 0 8 = code := by
    simp (disch := decide) only [encodeTrap, field_or, field_opBits_of_le, field_bitsAt_self, BitVec.ofNat_eq_ofNat,
      BitVec.zero_or]
  rw [decode_of_opcode_trap hop, hcode]

theorem decode_encode (i : Instr) (h : i.wellFormed = true) : decode (encode i) = i := by
  have hop := opcodeOf_encode i
  cases i
  case trap code => rw [encode, decode_encodeTrap, decodeTrap_of_unknown (Option.isNone_iff_eq_none.mp h)]
  case getc | out | puts | in_ | putsp | halt => exact decode_encodeTrap _
  all_goals
    rw [decode, hop]
    simp (disch := decide) only [Instr.opcode, encode, regField, field_or, field_opBits_of_le, field_bitsAt_self,
      field_bitsAt_of_disjoint, BitVec.ofNat_eq_ofNat, BitVec.or_zero, BitVec.zero_or, regBits_toFin, if_true, if_neg]

/-- Settles O2: the opcode field selects the decoder's arm, and every other field reads back from where it was put. -/
theorem decodeOfEncode : Obligations.DecodeOfEncode := decode_encode

/-! ## Masked Words -/

/-- The bits of a field under the mask of that field. -/
theorem and_bitsAt_allOnes (w : Word) (lo n : Nat) : w &&& bitsAt lo (BitVec.allOnes n) = bitsAt lo (field w lo n) := by
  refine BitVec.eq_of_getLsbD_eq fun i hi => ?_
  by_cases hlo : i < lo
  · simp [hlo]
  · simp [hi, hlo, Nat.add_sub_of_le (Nat.le_of_not_lt hlo), Bool.and_comm]

/-- Words that agree under a mask agree in every field the mask covers. -/
theorem field_eq_of_and_eq {w w' m : Word} {lo n : Nat} (h : w &&& m = w' &&& m)
    (hm : field m lo n = BitVec.allOnes n) : field w lo n = field w' lo n := by
  have hfield := congrArg (field · lo n) h
  simpa only [field, BitVec.extractLsb'_and, hm, BitVec.and_allOnes] using hfield

/-- A Word is its opcode field and its twelve other bits. -/
theorem bitsAt_opcode_or_rest (w : Word) : bitsAt 12 (field w 12 4) ||| bitsAt 0 (field w 0 12) = w := by
  have hmask : bitsAt 12 (BitVec.allOnes 4) ||| bitsAt 0 (BitVec.allOnes 12) = BitVec.allOnes 16 := by decide
  rw [← and_bitsAt_allOnes, ← and_bitsAt_allOnes, ← BitVec.and_or_distrib_left, hmask, BitVec.and_allOnes]

theorem bitsAt_opcode_of_opcodeOf {w : Word} {o : Opcode} (hop : Config.opcodeOf (field w 12 4) = o) :
    bitsAt 12 (field w 12 4) = opBits o := by
  rw [opBits, ← hop, opcodeNumber_opcodeOf]

/-- A Word of a known opcode is the opcode's number and its twelve other bits. -/
theorem opBits_or_rest {w : Word} {o : Opcode} (hop : Config.opcodeOf (field w 12 4) = o) :
    opBits o ||| bitsAt 0 (field w 0 12) = w := by
  rw [← bitsAt_opcode_of_opcodeOf hop, bitsAt_opcode_or_rest]

/-- A mask of the opcode field leaves the opcode's number (R88). -/
theorem and_opcode_mask {w : Word} {o : Opcode} (hop : Config.opcodeOf (field w 12 4) = o) : w &&& 0xF000 = opBits o :=
  (and_bitsAt_allOnes w 12 4).trans (bitsAt_opcode_of_opcodeOf hop)

/-- A mask of the opcode field and one more field leaves the opcode's number and that field. -/
theorem and_opcode_or_mask {w : Word} {o : Opcode} (lo n : Nat) (hop : Config.opcodeOf (field w 12 4) = o) :
    w &&& (0xF000 ||| bitsAt lo (BitVec.allOnes n)) = opBits o ||| bitsAt lo (field w lo n) := by
  rw [BitVec.and_or_distrib_left, and_opcode_mask hop, and_bitsAt_allOnes]

/-! ## The row of a Word (R88, R90) -/

/-- Every code decodes to a routine's instruction at the routine's code, or to the generic TRAP. -/
theorem decodeTrap_cases (code : BitVec 8) :
    (∃ r, code = Config.trapCode r) ∨ (Config.trapRoutine code = none ∧ decodeTrap code = .trap code) := by
  rcases hcode : Config.trapRoutine code with _ | r
  · exact .inr ⟨rfl, decodeTrap_of_unknown hcode⟩
  · exact .inl ⟨r, trapCode_of_trapRoutine hcode⟩

theorem decodeTrap_wellFormed (code : BitVec 8) : (decodeTrap code).wellFormed = true := by
  obtain ⟨r, rfl⟩ | ⟨hnone, hdecode⟩ := decodeTrap_cases code
  · cases r <;> rfl
  · rw [hdecode, Instr.wellFormed, hnone, Option.isNone_none]

theorem decode_wellFormed (w : Word) : (decode w).wellFormed = true := by
  unfold decode
  split
  case h_16 => exact decodeTrap_wellFormed _
  case h_2 | h_5 | h_6 => split <;> rfl
  all_goals rfl

theorem opcode_decode (w : Word) : (decode w).opcode = Config.opcodeOf (field w 12 4) := by
  rcases hop : Config.opcodeOf (field w 12 4) <;> rw [decode, hop]
  case add | and | jsr => dsimp only; split <;> rfl
  case trap =>
    obtain ⟨r, hr⟩ | ⟨-, hdecode⟩ := decodeTrap_cases (field w 0 8)
    · rw [hr]
      cases r <;> rfl
    · rw [hdecode, Instr.opcode]
  all_goals rfl

/-- All the bits of a reserved opcode's Word are kept. -/
theorem encode_decode_of_reserved {w : Word}
    (hop : Config.opcodeOf (field w 12 4) = .rti ∨ Config.opcodeOf (field w 12 4) = .res) : encode (decode w) = w := by
  obtain hop | hop := hop
  · rw [decode_of_opcode_rti hop, encode, opBits_or_rest hop]
  · rw [decode_of_opcode_res hop, encode, opBits_or_rest hop]

theorem and_rowMask_decode_of_trap {w : Word} (hop : Config.opcodeOf (field w 12 4) = .trap) :
    w &&& (decode w).rowMask = (decode w).rowMatch := by
  have hcode := and_opcode_or_mask 0 8 hop
  rw [decode_of_opcode_trap hop]
  obtain ⟨r, hr⟩ | ⟨-, hdecode⟩ := decodeTrap_cases (field w 0 8)
  · rw [hr] at hcode ⊢
    cases r <;> exact hcode
  · have hop := and_opcode_mask hop
    rw [hdecode]
    exact hop

theorem and_rowMask_decode (w : Word) : w &&& (decode w).rowMask = (decode w).rowMatch := by
  rcases hop : Config.opcodeOf (field w 12 4)
  case trap => exact and_rowMask_decode_of_trap hop
  case add | and =>
    have hrow := and_opcode_or_mask 5 1 hop
    rw [decode, hop]
    rcases BitVec.eq_zero_or_eq_one (field w 5 1) with hbit | hbit <;> rw [hbit] at hrow ⊢ <;> exact hrow
  case jsr =>
    have hrow := and_opcode_or_mask 11 1 hop
    rw [decode, hop]
    rcases BitVec.eq_zero_or_eq_one (field w 11 1) with hbit | hbit <;> rw [hbit] at hrow ⊢ <;> exact hrow
  all_goals
    have hrow := and_opcode_mask hop
    rw [decode, hop]
    exact hrow

/-- Settles O3: the opcode field, with bit 5 or 11 or the trap code where a row has them, is what the mask leaves. -/
theorem decodeLandsInItsTableRow : Obligations.DecodeLandsInItsTableRow :=
  fun w => ⟨decode_wellFormed w, and_rowMask_decode w⟩

/-! ## The decoder by cases (R90) -/

/-- Table T (R89): the codes of the six routines, and any other. -/
theorem decodeTrap_eq (code : BitVec 8) : decodeTrap code =
    if code = 0x20 then .getc
    else if code = 0x21 then .out
    else if code = 0x22 then .puts
    else if code = 0x23 then .in_
    else if code = 0x24 then .putsp
    else if code = 0x25 then .halt
    else .trap code := by
  obtain ⟨r, rfl⟩ | ⟨hnone, hdecode⟩ := decodeTrap_cases code
  · cases r <;> rfl
  · have hne (r : Routine) : code ≠ Config.trapCode r := by
      rintro rfl
      exact Option.some_ne_none r ((trapRoutine_trapCode r).symm.trans hnone)
    rw [hdecode]
    exact ((if_neg (hne .getc)).trans <| (if_neg (hne .out)).trans <| (if_neg (hne .puts)).trans <|
      (if_neg (hne .inEcho)).trans <| (if_neg (hne .putsp)).trans <| if_neg (hne .halt)).symm

/-- Settles O4: each opcode's arm, with the bit or the code that splits it. -/
theorem decoderAlgorithm : Obligations.DecoderAlgorithm := by
  intro w
  have hop {n : BitVec 4} (o : Opcode) (hn : Config.opcodeNumber o = n) (h : field w 12 4 = n) :
      Config.opcodeOf (field w 12 4) = o := opcodeOf_eq_of_eq_opcodeNumber (h.trans hn.symm)
  refine ⟨fun h => decode_of_opcode_br (hop .br rfl h), fun h hbit => ?_, fun h hbit => ?_,
    fun h => decode_of_opcode_ld (hop .ld rfl h), fun h => decode_of_opcode_st (hop .st rfl h), fun h hbit => ?_,
    fun h hbit => ?_, fun h hbit => ?_, fun h hbit => ?_, fun h => decode_of_opcode_ldr (hop .ldr rfl h),
    fun h => decode_of_opcode_str (hop .str rfl h), fun h => decode_of_opcode_rti (hop .rti rfl h),
    fun h => decode_of_opcode_not (hop .not rfl h), fun h => decode_of_opcode_ldi (hop .ldi rfl h),
    fun h => decode_of_opcode_sti (hop .sti rfl h), fun h => decode_of_opcode_jmp (hop .jmp rfl h),
    fun h => decode_of_opcode_res (hop .res rfl h), fun h => decode_of_opcode_lea (hop .lea rfl h),
    fun h => (decode_of_opcode_trap (hop .trap rfl h)).trans (decodeTrap_eq _)⟩
  · rw [decode_of_opcode_add (hop .add rfl h), if_pos hbit]
  · rw [decode_of_opcode_add (hop .add rfl h), if_neg (by simp [hbit])]
  · rw [decode_of_opcode_jsr (hop .jsr rfl h), if_pos hbit]
  · rw [decode_of_opcode_jsr (hop .jsr rfl h), if_neg (by simp [hbit])]
  · rw [decode_of_opcode_and (hop .and rfl h), if_pos hbit]
  · rw [decode_of_opcode_and (hop .and rfl h), if_neg (by simp [hbit])]

/-! ## Ignored bits (R84) -/

/-- Every mask of used bits covers the opcode field. -/
theorem field_usedBits_opcode (i : Instr) : field i.usedBits 12 4 = BitVec.allOnes 4 := by
  cases i <;> rw [Instr.usedBits] <;> decide

theorem usedBits_decodeTrap (code : BitVec 8) : (decodeTrap code).usedBits = 0xF0FF := by
  obtain ⟨r, rfl⟩ | ⟨-, hdecode⟩ := decodeTrap_cases code
  · cases r <;> rfl
  · rw [hdecode, Instr.usedBits]

section SameUsedBits

variable {w w' : Word}

/-- `w` and `w'` agree in the bits that the instruction of `w` uses. -/
def SameUsedBits (w w' : Word) : Prop := w &&& (decode w).usedBits = w' &&& (decode w).usedBits

theorem SameUsedBits.opcode_eq (h : SameUsedBits w w') :
    Config.opcodeOf (field w' 12 4) = Config.opcodeOf (field w 12 4) :=
  congrArg Config.opcodeOf (field_eq_of_and_eq h (field_usedBits_opcode _)).symm

theorem SameUsedBits.field_eq (h : SameUsedBits w w') (m : Word) (hmask : (decode w).usedBits = m) (lo n : Nat)
    (hm : field m lo n = BitVec.allOnes n) : field w' lo n = field w lo n :=
  (field_eq_of_and_eq h (hmask ▸ hm)).symm

/-- An instruction that uses every bit stands for one Word. -/
theorem SameUsedBits.eq_of_allOnes (h : SameUsedBits w w') (hmask : (decode w).usedBits = BitVec.allOnes 16) :
    w' = w := by
  rw [SameUsedBits, hmask, BitVec.and_allOnes, BitVec.and_allOnes] at h
  exact h.symm

/-- The forms with ignored bits are ADD and AND with two registers, JSRR, NOT, JMP and TRAP: the mask covers the fields
they read. The other forms use every bit. -/
theorem SameUsedBits.decode_eq (h : SameUsedBits w w') (hrti : Config.opcodeOf (field w 12 4) ≠ .rti)
    (hres : Config.opcodeOf (field w 12 4) ≠ .res) : decode w' = decode w := by
  have hop' := h.opcode_eq
  rcases hop : Config.opcodeOf (field w 12 4)
  case rti => exact absurd hop hrti
  case res => exact absurd hop hres
  case add | and =>
    rcases BitVec.eq_zero_or_eq_one (field w 5 1) with hbit | hbit
    · have hfield := h.field_eq 0xFFE7 (by rw [decode, hop, hbit]; rfl)
      rw [decode, decode, hop', hop]
      simp (disch := decide) only [regField, hfield, hbit, if_pos]
    · rw [h.eq_of_allOnes (by rw [decode, hop, hbit]; rfl)]
  case jsr =>
    rcases BitVec.eq_zero_or_eq_one (field w 11 1) with hbit | hbit
    · have hfield := h.field_eq 0xF9C0 (by rw [decode, hop, hbit]; rfl)
      rw [decode, decode, hop', hop]
      simp (disch := decide) only [regField, hfield, hbit, if_neg]
    · rw [h.eq_of_allOnes (by rw [decode, hop, hbit]; rfl)]
  case not =>
    have hfield := h.field_eq 0xFFC0 (by rw [decode, hop]; rfl)
    rw [decode, decode, hop', hop]
    simp (disch := decide) only [regField, hfield]
  case jmp =>
    have hfield := h.field_eq 0xF1C0 (by rw [decode, hop]; rfl)
    rw [decode, decode, hop', hop]
    simp (disch := decide) only [regField, hfield]
  case trap =>
    have hcode := h.field_eq 0xF0FF (by rw [decode_of_opcode_trap hop, usedBits_decodeTrap]) 0 8 (by decide)
    rw [decode_of_opcode_trap (hop'.trans hop), decode_of_opcode_trap hop, hcode]
  all_goals rw [h.eq_of_allOnes (by rw [decode, hop]; rfl)]

end SameUsedBits

end Sys2Proof

namespace Sys2Proof.Machine

/-- A reserved opcode records its whole Word and the address it was fetched from (R190, R191; D7). -/
theorem exec_decode_of_reserved {w : Word}
    (hop : Config.opcodeOf (field w 12 4) = .rti ∨ Config.opcodeOf (field w 12 4) = .res) (s : State) :
    exec (decode w) s = .next (s.raise (.illegalOpcode w (s.pc - 1))) := by
  have hword := encode_decode_of_reserved hop
  obtain hop | hop := hop
  · rw [decode_of_opcode_rti hop] at hword ⊢
    rw [exec, execRti, hword]
    rfl
  · rw [decode_of_opcode_res hop] at hword ⊢
    rw [exec, execRes, hword]
    rfl

/-- Settles O5: the Words of one opcode agree in every field their form reads, but for the two reserved opcodes, which
record the whole Word. -/
theorem ignoredBitsHaveNoEffect : Obligations.IgnoredBitsHaveNoEffect := by
  intro w w' h
  by_cases hreserved : Config.opcodeOf (field w 12 4) = .rti ∨ Config.opcodeOf (field w 12 4) = .res
  · have hreserved' := SameUsedBits.opcode_eq h ▸ hreserved
    refine .inr ⟨field w 0 12, field w' 0 12, ?_, fun s => ?_⟩
    · exact hreserved.imp (fun hop => ⟨decode_of_opcode_rti hop, decode_of_opcode_rti (SameUsedBits.opcode_eq h ▸ hop)⟩)
        fun hop => ⟨decode_of_opcode_res hop, decode_of_opcode_res (SameUsedBits.opcode_eq h ▸ hop)⟩
    · exact ⟨_, _, exec_decode_of_reserved hreserved s, exec_decode_of_reserved hreserved' s, rfl, rfl, rfl⟩
  · obtain ⟨hrti, hres⟩ := not_or.mp hreserved
    exact .inl (SameUsedBits.decode_eq h hrti hres)

/-- Settles O1: fourteen closed facts, each the decoder run on its Word. -/
theorem sampleWordsDecode : Obligations.SampleWordsDecode := by
  unfold Obligations.SampleWordsDecode
  decide

end Sys2Proof.Machine
end

section
/-! Memory as programs see it (spec/20_memory.md R50 to R66): a read by the kind of its address, the last write as every
later read and fetch finds it, and that canonical memories are told apart by their reads. -/

namespace Sys2Proof.Machine

/-! ## Reads -/

theorem State.readStatus_eq (s : State) : s.readStatus = if s.kbdQueue = [] then 0 else Config.kbsrReady := by
  cases hqueue : s.kbdQueue <;> simp [readStatus, consoleKeyAvailable, hqueue]

theorem State.readData_cons {s : State} {c : Byte} {rest : List Byte} (h : s.kbdQueue = c :: rest) :
    s.readData = (Config.kbdrEncode c, { s with kbdQueue := rest }) := by
  simp [readData, consoleTakeChar, h]

theorem State.readData_nil {s : State} (h : s.kbdQueue = []) :
    s.readData = (Config.freeWord s.draws, { s with draws := s.draws + 1 }) := by
  simp [readData, consoleTakeChar, drawWord, h]

theorem State.memRead_of_plain (s : State) {a : Word} (h : PlainAddr a) : s.memRead a = (s.cell a, s) :=
  s.memRead_plain h.1 h.2

/-- Settles O18: a plain address, and the two device addresses by the state of the queue. -/
theorem memReadByCases : Obligations.MemReadByCases := by
  intro s
  refine ⟨fun a ha => s.memRead_of_plain ha, ?_, by decide, fun c rest hqueue => ?_, fun hqueue => ?_⟩
  · rw [s.memRead_status, s.readStatus_eq]
  · rw [s.memRead_data, State.readData_cons hqueue]
  · rw [s.memRead_data, State.readData_nil hqueue]

/-! ## Writes -/

/-- A cell after a write, in one equation (R53). -/
theorem State.cell_memWrite (s : State) (a b v : Word) : (s.memWrite a v).cell b = if b = a then v else s.cell b := by
  split
  next h => rw [h, s.cell_memWrite_self]
  next h => exact s.cell_memWrite_ne v h

/-- Settles O19: a plain read is the cell's value, before and after the write. -/
theorem readAfterWrite : Obligations.ReadAfterWrite := by
  intro s a v
  refine ⟨fun b => s.cell_memWrite a b v, fun b hb => ?_, rfl⟩
  rw [State.memRead_of_plain _ hb, State.memRead_of_plain _ hb, s.cell_memWrite]

/-- Settles O21: the fetch is a plain read of the cell written. -/
theorem fetchSeesTheLatestStore : Obligations.FetchSeesTheLatestStore := by
  intro s a v ha
  rw [State.fetch, State.setPc_pc, State.memRead_of_plain _ ha, State.cell_setPc, s.cell_memWrite_self]
  rfl

/-! ## The canonical form -/

/-- The entries of a canonical memory are its nonzero cells. -/
theorem Memory.mem_iff_read {m : Memory} (h : m.wf) (k : Nat) (v : Word) :
    (k, v) ∈ m ↔ m.read k = v ∧ v ≠ Memory.unlisted := by
  obtain ⟨hsorted, hcells⟩ := h
  induction m with
  | nil => simp [eq_comm]
  | cons c m ih =>
    obtain ⟨k', v'⟩ := c
    obtain ⟨hhead, htail⟩ := List.pairwise_cons.mp hsorted
    have hne := (hcells (k', v') List.mem_cons_self).2
    have ih := ih htail fun c hc => hcells c (List.mem_cons_of_mem _ hc)
    rw [List.mem_cons, ih, read_cons, Prod.mk.injEq]
    by_cases hk : k' = k
    · subst hk
      have hunlisted : Memory.read m k' = Memory.unlisted := read_eq_unlisted fun c hc => (hhead c hc).ne'
      rw [hunlisted, if_pos rfl]
      constructor
      · rintro (⟨-, rfl⟩ | ⟨rfl, hv⟩)
        · exact ⟨rfl, hne⟩
        · exact absurd rfl hv
      · rintro ⟨rfl, -⟩
        exact .inl ⟨rfl, rfl⟩
    · simp [hk, Ne.symm hk]

theorem Memory.subset_of_read_eq {m m' : Memory} (hm : m.wf) (hm' : m'.wf)
    (hread : ∀ a, a < Config.memWords → m.read a = m'.read a) : m ⊆ m' := by
  rintro ⟨k, v⟩ hmem
  obtain ⟨rfl, hv⟩ := (mem_iff_read hm k v).mp hmem
  have hk : k < Config.memWords := (hm.2 _ hmem).1
  exact (mem_iff_read hm' k _).mpr ⟨(hread k hk).symm, hv⟩

/-- Settles O20: memories that read alike list the same cells, and rising addresses leave one order for them. -/
theorem canonicalMemoriesThatReadAlikeAreEqual : Obligations.CanonicalMemoriesThatReadAlikeAreEqual := by
  intro m m' hm hm' hread
  have hirrefl : Std.Irrefl fun a b : Nat × Word => a.1 < b.1 := ⟨fun a => Nat.lt_irrefl a.1⟩
  have hantisymm : Std.Antisymm fun a b : Nat × Word => a.1 < b.1 := ⟨fun a b h h' => absurd h h'.asymm⟩
  exact List.Subset.antisymm_of_pairwise hm.1 hm'.1 (Memory.subset_of_read_eq hm hm' hread)
    (Memory.subset_of_read_eq hm' hm fun a ha => (hread a ha).symm)

end Sys2Proof.Machine
end

section
/-! The step by the run state, the environment's move and the wait (spec/40_execution_cycle.md R110 to R113;
spec/60_exceptions.md R206): one equation per case, of which `step_next_cases` is the inversion. -/

namespace Sys2Proof.Machine

variable {s : State}

/-! ## The environment's move (R14) -/

theorem State.deliver_nil (h : s.env = []) : s.deliver = s := by
  rw [deliver, h]

theorem State.deliver_cons {e : EnvMove} {rest : List EnvMove} (h : s.env = e :: rest) :
    s.deliver = { s with kbdQueue := s.kbdQueue ++ e.keys, env := rest } := by
  rw [deliver, h]

theorem State.stopRequested_nil (h : s.env = []) : s.stopRequested = false := by
  rw [stopRequested, h]

theorem State.stopRequested_cons {e : EnvMove} {rest : List EnvMove} (h : s.env = e :: rest) :
    s.stopRequested = e.stop := by
  rw [stopRequested, h]

/-- Settles O42: the next move, or none. -/
theorem environmentMovesAtBoundary : Obligations.EnvironmentMovesAtBoundary :=
  ⟨fun _ h => ⟨State.deliver_nil h, State.stopRequested_nil h⟩,
    fun _ _ _ h => ⟨State.deliver_cons h, State.stopRequested_cons h⟩⟩

/-! ## The step -/

theorem step_of_not_running (h : s.run ≠ .running) : step s = .next s := by
  unfold step
  split
  case h_1 hrun => exact absurd hrun h
  all_goals rfl

theorem step_of_stopRequested (hrun : s.run = .running) (hstop : s.stopRequested = true) :
    step s = .next s.deliver.stopCore := by
  rw [step, hrun]
  exact if_pos hstop

theorem step_of_wait {w : Wait} (hrun : s.run = .running) (hstop : s.stopRequested = false) (hwait : s.wait = some w) :
    step s = .next (s.deliver.inputChar w) := by
  rw [step, hrun]
  dsimp only
  rw [runningStep, hstop, hwait]
  rfl

theorem step_of_fetch (hrun : s.run = .running) (hstop : s.stopRequested = false) (hwait : s.wait = none) :
    step s = exec (decode s.deliver.fetch.1) s.deliver.fetch.2 := by
  rw [step, hrun]
  dsimp only
  rw [runningStep, hstop, hwait]
  rfl

/-- Settles O44: HALTED, FAULTED and STOPPED each answer the state itself. -/
theorem terminalStatesStay : Obligations.TerminalStatesStay := fun _ => step_of_not_running

/-- Settles O43: the fetch reads through MemRead at the `pc` the delivery left. -/
theorem stepRunsTheDecodedInstruction : Obligations.StepRunsTheDecodedInstruction := by
  intro s r w i hrun hstop hwait hread hdecode
  rw [step_of_fetch hrun hstop hwait, State.fetch_word, State.fetch_state, s.deliver_pc, hread, hdecode]

/-- Settles O45: the delivery touches the queue and the moves only, and the stop the run state and the wait only. -/
theorem stopRequestEndsTheRun : Obligations.StopRequestEndsTheRun := by
  intro s hrun hstop
  refine ⟨_, step_of_stopRequested hrun hstop, rfl, rfl, fun r _ => ?_, s.deliver_pc, s.deliver_cond, fun a => ?_,
    s.deliver_out⟩
  · exact State.readReg_congr s.deliver_x r
  · exact State.cell_congr s.deliver_mem a

/-- A console input that finds a character completes with it (R162, R163, R166). -/
theorem State.inputChar_of_cons (w : Wait) {c : Byte} {rest : List Byte} (h : s.kbdQueue = c :: rest) :
    s.inputChar w =
      { s with kbdQueue := rest, out := s.out ++ w.echo c, x := s.x.set 0 (zext16 c), wait := none } := by
  obtain ⟨hnil, -⟩ | ⟨c', rest', hcons, hinput⟩ := s.inputChar_cases w
  · exact absurd (h.symm.trans hnil) (List.cons_ne_nil c rest)
  · obtain ⟨rfl, rfl⟩ := List.cons.inj (h.symm.trans hcons)
    exact hinput

/-- Settles O46: the wait takes the head of the queue that the delivery left, or finds it empty again. -/
theorem waitEndsWithTheFirstCharacter : Obligations.WaitEndsWithTheFirstCharacter := by
  intro s w hrun hstop hwait
  rw [step_of_wait hrun hstop hwait]
  refine ⟨fun hqueue => ?_, fun c rest hqueue => ?_⟩
  · rw [State.inputChar_nil w hqueue, ← hwait, ← s.deliver_wait]
  · refine ⟨_, rfl, ?_⟩
    rw [State.inputChar_of_cons w hqueue]
    refine ⟨rfl, s.deliver_run.trans hrun, fun r hr => ?_, ?_, s.deliver_pc, s.deliver_cond, fun a => ?_, rfl, ?_⟩
    · exact (s.deliver.readReg_writeReg_ne _ (List.ne_of_not_mem_cons hr)).trans (State.readReg_congr s.deliver_x r)
    · exact (congrArg BitVec.toNat (s.deliver.readReg_writeReg_self 0 _)).trans (toNat_zext16 (by decide) c)
    · exact State.cell_congr s.deliver_mem a
    · rw [s.deliver_out]
      cases w <;> rfl

end Sys2Proof.Machine
end

section
/-! GETC, IN, HALT and unknown codes after the trap entry (spec/44_trap.md R160 to R169), and the Word that a reserved
opcode records (spec/45_reserved.md). -/

namespace Sys2Proof.Machine

variable {s t : State}

/-! ## GETC and IN (R162, R163, R166) -/

/-- With a character pending, a console input after the trap entry completes with it. -/
theorem inputChar_trapEntry_of_cons (w : Wait) {c : Byte} {rest : List Byte} (h : s.kbdQueue = c :: rest)
    (ht : t = s.trapEntry.inputChar w) :
    TrapFrame s t ∧ SameRegsBut s t [7, 0] ∧ (t.readReg 0).toNat = c.toNat ∧ t.kbdQueue = rest ∧
      t.out = s.out ++ w.echo c ∧ t.run = s.run ∧ t.wait = none ∧ t.draws = s.draws := by
  rw [State.inputChar_of_cons (s := s.trapEntry) w h] at ht
  have hx : t.x = (s.trapEntry.writeReg 0 (zext16 c)).x := by rw [ht]; rfl
  have hlink : t.readReg 7 = s.pc := by
    rw [State.readReg_congr hx, State.readReg_writeReg_ne _ _ (by decide), s.readReg_trapEntry_seven]
  have hregs : SameRegsBut s t [7, 0] := fun r hr => by
    obtain ⟨h7, h0⟩ : r ≠ 7 ∧ r ≠ 0 := by simpa using hr
    rw [State.readReg_congr hx, State.readReg_writeReg_ne _ _ h0, s.readReg_trapEntry_ne h7]
  have hvalue : (t.readReg 0).toNat = c.toNat := by
    rw [State.readReg_congr hx, State.readReg_writeReg_self, toNat_zext16 (by decide)]
  subst ht
  exact ⟨⟨hlink, rfl, rfl, fun _ => rfl, rfl⟩, hregs, hvalue, rfl, rfl, rfl, rfl, rfl⟩

/-- With no character pending, it waits, and the trap entry is all that has been done. -/
theorem inputChar_trapEntry_of_nil (w : Wait) (h : s.kbdQueue = []) (ht : t = s.trapEntry.inputChar w) :
    TrapFrame s t ∧ SameRegsBut s t [7] ∧ SameConsole s t ∧ t.run = s.run ∧ t.wait = some w := by
  rw [State.inputChar_nil (s := s.trapEntry) w h] at ht
  subst ht
  exact ⟨s.trapFrame_trapEntry, s.sameRegsBut_trapEntry, ⟨rfl, rfl, rfl⟩, rfl, rfl⟩

/-- Settles O32: GETC echoes nothing. -/
theorem getcResult : Obligations.GetcResult := by
  refine ⟨fun s c rest h => ⟨_, rfl, ?_⟩, fun s h => ⟨_, rfl, inputChar_trapEntry_of_nil .getc h rfl⟩⟩
  have hinput := inputChar_trapEntry_of_cons .getc h rfl
  rwa [Wait.echo, List.append_nil] at hinput

/-- Settles O33: IN echoes the character. -/
theorem inResult : Obligations.InResult :=
  ⟨fun _ _ _ h => ⟨_, rfl, inputChar_trapEntry_of_cons .inEcho h rfl⟩,
    fun _ h => ⟨_, rfl, inputChar_trapEntry_of_nil .inEcho h rfl⟩⟩

/-! ## HALT, unknown codes, reserved opcodes -/

/-- Settles O38: HALT is the trap entry, the notice and the run state. -/
theorem haltResult : Obligations.HaltResult := fun s =>
  ⟨_, rfl, s.trapFrame_trapEntry, s.sameRegsBut_trapEntry, rfl, rfl, rfl, rfl, rfl⟩

theorem trapRoutine_eq_none_of_range {code : BitVec 8} (h : code.toNat < 0x20 ∨ 0x25 < code.toNat) :
    Config.trapRoutine code = none := by
  rcases hcode : Config.trapRoutine code with _ | r
  · rfl
  · have hrange (r : Routine) : 0x20 ≤ (Config.trapCode r).toNat ∧ (Config.trapCode r).toNat ≤ 0x25 := by
      cases r <;> decide
    rw [trapCode_of_trapRoutine hcode] at h
    have := hrange r
    omega

theorem exec_trap_of_unknown {code : BitVec 8} (h : Config.trapRoutine code = none) (s : State) :
    exec (.trap code) s = .next (s.trapEntry.raise (.illegalTrap code (s.pc - 1))) := by
  rw [exec, execTrap, trapRoutineOf, h]
  rfl

/-- Settles O39: an unknown code raises after the trap entry, and a known one is the routine's instruction. -/
theorem trapResult : Obligations.TrapResult := by
  refine ⟨fun code s h => ?_, fun s => ⟨rfl, rfl, rfl, rfl, rfl, rfl⟩⟩
  exact ⟨_, exec_trap_of_unknown (trapRoutine_eq_none_of_range h) s, s.trapFrame_trapEntry, s.sameRegsBut_trapEntry,
    ⟨rfl, rfl, rfl⟩, rfl, rfl⟩

/-- An opcode's number and the twelve bits below it do not overlap. -/
theorem opBits_or_bitsAt_zero (o : Opcode) (rest : BitVec 12) :
    opBits o ||| bitsAt 0 rest = BitVec.ofNat 16 ((opBits o).toNat + rest.toNat) := by
  have hdisjoint : opBits o &&& bitsAt 0 rest = 0 := by
    rw [BitVec.and_comm]
    exact Laws.EncodesInRow.bitsAt_and_eq_zero rest (field_opBits_of_le o (by decide))
  rw [← BitVec.add_eq_or_of_and_eq_zero _ _ hdisjoint]
  refine BitVec.eq_of_toNat_eq ?_
  simp [Nat.mod_eq_of_lt (Nat.lt_trans rest.isLt (by decide : 2 ^ 12 < 65536))]

/-- Settles O40: the recorded Word is the opcode's number and the ignored bits. -/
theorem reservedOpcodesFault : Obligations.ReservedOpcodesFault := by
  intro rest s
  rw [exec, exec, execRti, execRes, encode, encode, opBits_or_bitsAt_zero, opBits_or_bitsAt_zero]
  exact ⟨rfl, rfl⟩

end Sys2Proof.Machine
end

section
/-! PUTS and PUTSP (spec/44_trap.md R165, R167): what a string scan leaves unchanged in every state, and what it writes
for a string that lies at no device address. -/

namespace Sys2Proof.Machine

variable {s t : State}

/-! ## What a string scan leaves (R161) -/

theorem TrapFrame.scannedFrom {u : State} (h : TrapFrame s t) (hscan : ScannedFrom t u) : TrapFrame s u := by
  obtain ⟨_, _, _, rfl, -⟩ := hscan
  exact h

theorem SameRegsBut.scannedFrom {u : State} {rs : List Reg} (h : SameRegsBut s t rs) (hscan : ScannedFrom t u) :
    SameRegsBut s u rs := by
  obtain ⟨_, _, _, rfl, -⟩ := hscan
  exact h

theorem ScannedFrom.run_eq (h : ScannedFrom s t) : t.run = s.run := by
  obtain ⟨_, _, _, rfl, -⟩ := h
  rfl

theorem ScannedFrom.wait_eq (h : ScannedFrom s t) : t.wait = s.wait := by
  obtain ⟨_, _, _, rfl, -⟩ := h
  rfl

theorem ScannedFrom.out_prefix (h : ScannedFrom s t) : s.out <+: t.out := by
  obtain ⟨_, o, _, rfl, -⟩ := h
  exact List.prefix_append s.out o

theorem ScannedFrom.kbdQueue_suffix (h : ScannedFrom s t) : t.kbdQueue <:+ s.kbdQueue := by
  obtain ⟨_, _, _, rfl, hqueue⟩ := h
  exact hqueue

/-- PUTS and PUTSP are a scan after the trap entry. -/
theorem exec_string_next {i : Instr} (hi : i = .puts ∨ i = .putsp) (s : State) :
    ∃ t, exec i s = .next t ∧ ScannedFrom s.trapEntry t := by
  obtain rfl | rfl := hi
  · exact routinePuts_next s.trapEntry
  · exact routinePutsp_next s.trapEntry

/-- Settles O35: every scan ends within its budget, and a scan touches the console only. -/
theorem stringRoutinesAlwaysComplete : Obligations.StringRoutinesAlwaysComplete := by
  intro s i hi
  obtain ⟨t, ht, hscan⟩ := exec_string_next hi s
  exact ⟨t, ht, s.trapFrame_trapEntry.scannedFrom hscan, s.sameRegsBut_trapEntry.scannedFrom hscan, hscan.run_eq,
    hscan.wait_eq, hscan.out_prefix, hscan.kbdQueue_suffix⟩

/-! ## Strings at no device address -/

theorem lowByte_eq_ofNat (w : Word) : lowByte w = BitVec.ofNat 8 w.toNat :=
  BitVec.eq_of_toNat_eq (by rw [toNat_lowByte, BitVec.toNat_ofNat])

/-- A run of addresses without a device address is shorter than one pass over memory, so within every budget. -/
theorem length_lt_scanBudget {a : Word} {len : Nat} (hplain : ∀ i, i ≤ len → PlainAddr (a + BitVec.ofNat 16 i))
    (s : State) : len < s.scanBudget := by
  have hstatus : a + BitVec.ofNat 16 (statusDistance a) = Config.kbsrAddr := by
    rw [statusDistance, BitVec.ofNat_toNat, BitVec.setWidth_eq]
    bv_omega
  have hlen : len < statusDistance a := by
    by_contra hle
    exact (hplain _ (Nat.le_of_not_lt hle)).1 hstatus
  have hpass : statusDistance a < Config.memWords := (Config.kbsrAddr - a).isLt
  have hbudget : Config.memWords ≤ s.scanBudget := Nat.le_mul_of_pos_left _ (Nat.succ_pos _)
  omega

/-- The Words `ws` lie from `a` on, at no device address. -/
def State.HoldsAt (s : State) (a : Word) (ws : List Word) : Prop :=
  ∀ i (h : i < ws.length), PlainAddr (a + BitVec.ofNat 16 i) ∧ s.cell (a + BitVec.ofNat 16 i) = ws[i]

theorem State.HoldsAt.head {a w : Word} {ws : List Word} (h : s.HoldsAt a (w :: ws)) : PlainAddr a ∧ s.cell a = w := by
  simpa using h 0 (Nat.succ_pos _)

theorem State.HoldsAt.tail {a w : Word} {ws : List Word} (h : s.HoldsAt a (w :: ws)) : s.HoldsAt (a + 1) ws :=
  fun i hi => add_ofNat_succ a i ▸ h (i + 1) (Nat.succ_lt_succ hi)

theorem State.consoleWrite_append (s : State) (bs bs' : List Byte) :
    (s.consoleWrite bs).consoleWrite bs' = s.consoleWrite (bs ++ bs') := by
  simp [consoleWrite]

/-- A scan that writes `emit w` at each Word `w` of a string and goes on is past the string after as many reads. -/
theorem scan_of_holdsAt {scan : Nat → Word → State → Option State} {emit : Word → List Byte} {ws : List Word}
    (hstep : ∀ w ∈ ws, ∀ n a s, PlainAddr a → s.cell a = w →
      scan (n + 1) a s = scan n (a + 1) (s.consoleWrite (emit w)))
    (n : Nat) {a : Word} {s : State} (h : s.HoldsAt a ws) :
    scan (n + ws.length) a s = scan n (a + BitVec.ofNat 16 ws.length) (s.consoleWrite (ws.flatMap emit)) := by
  induction ws generalizing a s with
  | nil => simp [State.consoleWrite]
  | cons w ws ih =>
    obtain ⟨hplain, hcell⟩ := h.head
    have htail : (s.consoleWrite (emit w)).HoldsAt (a + 1) ws := h.tail
    have hrest := ih (fun w' hw' => hstep w' (List.mem_cons_of_mem w hw')) htail
    rw [List.length_cons, ← Nat.add_assoc, hstep w List.mem_cons_self _ _ _ hplain hcell, hrest, add_ofNat_succ,
      State.consoleWrite_append, List.flatMap_cons]

/-- The budget covers the reads of a string and one more. -/
theorem exists_scanBudget_eq {a : Word} {len : Nat} (hplain : ∀ i, i ≤ len → PlainAddr (a + BitVec.ofNat 16 i))
    (s : State) : ∃ n, s.scanBudget = n + 1 + len :=
  ⟨s.scanBudget - 1 - len, by have := length_lt_scanBudget hplain s; omega⟩

theorem putsScan_succ_of_ne_zero {w : Word} (hw : w ≠ 0) (n : Nat) (a : Word) (s : State) (ha : PlainAddr a)
    (hcell : s.cell a = w) : putsScan (n + 1) a s = putsScan n (a + 1) (s.consoleWrite [lowByte w]) := by
  rw [putsScan_succ, s.memRead_of_plain ha, hcell, if_neg hw]

theorem putsScan_succ_of_eq_zero (n : Nat) {a : Word} {s : State} (ha : PlainAddr a) (hcell : s.cell a = 0) :
    putsScan (n + 1) a s = some s := by
  rw [putsScan_succ, s.memRead_of_plain ha, hcell, if_pos rfl]

/-- The scan of PUTS over nonzero Words up to a zero one (R165). -/
theorem putsScan_scanBudget_eq {a : Word} {ws : List Word}
    (hplain : ∀ i, i ≤ ws.length → PlainAddr (a + BitVec.ofNat 16 i))
    (hcells : ∀ i (h : i < ws.length), s.cell (a + BitVec.ofNat 16 i) = ws[i] ∧ ws[i] ≠ 0)
    (hend : s.cell (a + BitVec.ofNat 16 ws.length) = 0) :
    putsScan s.scanBudget a s = some (s.consoleWrite (ws.flatMap fun w => [lowByte w])) := by
  have hstep : ∀ w ∈ ws, w ≠ 0 := fun w hw => by
    obtain ⟨i, hi, rfl⟩ := List.getElem_of_mem hw
    exact (hcells i hi).2
  have hholds : s.HoldsAt a ws := fun i hi => ⟨hplain i hi.le, (hcells i hi).1⟩
  obtain ⟨n, hbudget⟩ := exists_scanBudget_eq hplain s
  rw [hbudget, scan_of_holdsAt (fun w hw => putsScan_succ_of_ne_zero (hstep w hw)) (n + 1) hholds]
  exact putsScan_succ_of_eq_zero n (hplain _ le_rfl) hend

/-- Settles O36: after the trap entry, the scan of the string. -/
theorem putsWritesTheString : Obligations.PutsWritesTheString := by
  intro s ws hplain hcells hend
  have hscan := putsScan_scanBudget_eq (s := s.trapEntry) hplain hcells hend
  have hexec : exec .puts s = .next (s.trapEntry.consoleWrite (ws.flatMap fun w => [lowByte w])) :=
    congrArg scanResult ((congrArg (putsScan _ · _) s.readReg_trapEntry_zero).trans hscan)
  refine ⟨_, hexec, s.trapFrame_trapEntry.consoleWrite _, s.sameRegsBut_trapEntry.consoleWrite _, rfl, rfl, ?_, rfl,
    rfl⟩
  simp [← List.map_eq_flatMap, lowByte_eq_ofNat]

theorem putspScan_succ_of_ne_zero {w : Word} (hlow : lowByte w ≠ 0) (hhigh : highByte w ≠ 0) (n : Nat) (a : Word)
    (s : State) (ha : PlainAddr a) (hcell : s.cell a = w) :
    putspScan (n + 1) a s = putspScan n (a + 1) (s.consoleWrite [lowByte w, highByte w]) := by
  rw [putspScan_succ, s.memRead_of_plain ha, hcell, if_neg hlow, if_neg hhigh]

/-- A Word with a zero Byte ends the scan of PUTSP; its low Byte is written when only the high one is zero. -/
theorem putspScan_succ_of_zero_byte (n : Nat) {w a : Word} {s : State} (ha : PlainAddr a) (hcell : s.cell a = w)
    (hw : lowByte w = 0 ∨ highByte w = 0) :
    putspScan (n + 1) a s = some (s.consoleWrite (if lowByte w = 0 then [] else [lowByte w])) := by
  rw [putspScan_succ, s.memRead_of_plain ha, hcell]
  by_cases hlow : lowByte w = 0
  · rw [if_pos hlow, if_pos hlow]
    simp [State.consoleWrite]
  · rw [if_neg hlow, if_neg hlow]
    exact if_pos (hw.resolve_left hlow)

/-- The Word of two Bytes, the first one low. -/
def packedWord (p : Byte × Byte) : Word := bitsAt 8 p.2 ||| bitsAt 0 p.1

@[simp] theorem lowByte_packedWord (p : Byte × Byte) : lowByte (packedWord p) = p.1 := by
  have hlow : field (packedWord p) 0 8 = p.1 := by
    simp (disch := decide) only [packedWord, field_or, field_bitsAt_of_disjoint, field_bitsAt_self,
      BitVec.ofNat_eq_ofNat, BitVec.zero_or]
  exact hlow

@[simp] theorem highByte_packedWord (p : Byte × Byte) : highByte (packedWord p) = p.2 := by
  have hhigh : field (packedWord p) 8 8 = p.2 := by
    simp (disch := decide) only [packedWord, field_or, field_bitsAt_of_disjoint, field_bitsAt_self,
      BitVec.ofNat_eq_ofNat, BitVec.or_zero]
  exact hhigh

/-- The scan of PUTSP over Words of two nonzero Bytes up to a Word with a zero one (R167). -/
theorem putspScan_scanBudget_eq {a last : Word} {ps : List (Byte × Byte)}
    (hplain : ∀ i, i ≤ ps.length → PlainAddr (a + BitVec.ofNat 16 i))
    (hcells : ∀ i (h : i < ps.length), s.cell (a + BitVec.ofNat 16 i) = packedWord ps[i] ∧ ps[i].1 ≠ 0 ∧ ps[i].2 ≠ 0)
    (hlast : s.cell (a + BitVec.ofNat 16 ps.length) = last) (hzero : lowByte last = 0 ∨ highByte last = 0) :
    putspScan s.scanBudget a s =
      some (s.consoleWrite (ps.flatMap (fun p => [p.1, p.2]) ++ if lowByte last = 0 then [] else [lowByte last])) := by
  have hstep : ∀ w ∈ ps.map packedWord, lowByte w ≠ 0 ∧ highByte w ≠ 0 := fun w hw => by
    obtain ⟨p, hp, rfl⟩ := List.mem_map.mp hw
    obtain ⟨i, hi, rfl⟩ := List.getElem_of_mem hp
    simpa using (hcells i hi).2
  have hholds : s.HoldsAt a (ps.map packedWord) := fun i hi => by
    rw [List.length_map] at hi
    rw [List.getElem_map]
    exact ⟨hplain i hi.le, (hcells i hi).1⟩
  obtain ⟨n, hbudget⟩ := exists_scanBudget_eq hplain s
  have hpass := scan_of_holdsAt (fun w hw => putspScan_succ_of_ne_zero (hstep w hw).1 (hstep w hw).2) (n + 1) hholds
  rw [List.length_map, List.flatMap_map] at hpass
  simp only [lowByte_packedWord, highByte_packedWord] at hpass
  rw [hbudget, hpass, ← State.consoleWrite_append]
  exact putspScan_succ_of_zero_byte n (hplain _ le_rfl) hlast hzero

/-- Settles O37: after the trap entry, the scan of the packed string. -/
theorem putspWritesThePackedString : Obligations.PutspWritesThePackedString := by
  intro s ps last hplain hcells hlast hzero
  have hscan := putspScan_scanBudget_eq (s := s.trapEntry) hplain hcells hlast hzero
  have hexec := congrArg scanResult ((congrArg (putspScan _ · _) s.readReg_trapEntry_zero).trans hscan)
  exact ⟨_, hexec, s.trapFrame_trapEntry.consoleWrite _, s.sameRegsBut_trapEntry.consoleWrite _, rfl, rfl,
    (List.append_assoc ..).symm, rfl, rfl⟩

end Sys2Proof.Machine
end

section
/-! What an instruction can do, said once (spec/30_encoding.md R88, by the rules of spec/41 to spec/45): `ExecEffect` is
the inversion of `exec`, and every frame over all instructions is read off its six cases. -/

namespace Sys2Proof.Machine

variable {s t : State} {i : Instr} {code : BitVec 8}

/-! ## TRAP in the tables of Safety.lean -/

theorem flagDest_decodeTrap (code : BitVec 8) : flagDest (decodeTrap code) = none := by
  obtain ⟨r, rfl⟩ | ⟨-, hdecode⟩ := decodeTrap_cases code
  · cases r <;> rfl
  · rw [hdecode]
    rfl

theorem storeAddress_decodeTrap (s : State) (code : BitVec 8) : storeAddress s (decodeTrap code) = none := by
  obtain ⟨r, rfl⟩ | ⟨-, hdecode⟩ := decodeTrap_cases code
  · cases r <;> rfl
  · rw [hdecode]
    rfl

theorem writtenRegs_decodeTrap (code : BitVec 8) : writtenRegs (decodeTrap code) = writtenRegs (.trap code) := by
  obtain ⟨r, rfl⟩ | ⟨-, hdecode⟩ := decodeTrap_cases code
  · cases r <;> rfl
  · rw [hdecode]

/-! ## The inversion -/

/-- `ExecEffect s i t`: `t` is what the instruction `i` leaves of `s`. Each case carries what the tables of Safety.lean
say of `i`; `r` is the state after the instruction's reads. -/
inductive ExecEffect (s : State) (i : Instr) : State → Prop where
  /-- A flag-setting instruction writes its result (R28). -/
  | result {r : State} {dr : Reg} (v : Word) (hread : ScannedFrom s r) (hdest : flagDest i = some dr)
      (haddr : storeAddress s i = none) (hregs : writtenRegs i = [dr]) : ExecEffect s i (r.writeResult dr v)
  /-- A store writes one cell (R55). -/
  | store {r : State} {ea : Word} (v : Word) (hread : ScannedFrom s r) (hdest : flagDest i = none)
      (haddr : storeAddress s i = some ea) : ExecEffect s i (r.memWrite ea v)
  /-- BR and JMP write `pc` (R130, R132). -/
  | jump (target : Word) (hdest : flagDest i = none) (haddr : storeAddress s i = none) : ExecEffect s i (s.setPc target)
  /-- JSR and JSRR link and write `pc` (R133, R134). -/
  | call (target : Word) (hdest : flagDest i = none) (haddr : storeAddress s i = none) (hregs : writtenRegs i = [7]) :
      ExecEffect s i (s.link.setPc target)
  /-- A TRAP enters and runs the routine of its code (R160). -/
  | trap {code : BitVec 8} {t : State} (hroutine : trapRoutineOf code s.trapEntry = .next t)
      (hi : i = decodeTrap code ∨ i = .trap code) (hdest : flagDest i = none) (haddr : storeAddress s i = none)
      (hregs : writtenRegs i = writtenRegs (.trap code)) : ExecEffect s i t
  /-- A reserved opcode raises its fault (R190, R191). -/
  | reserved {rest : BitVec 12} (hi : i = .rti rest ∨ i = .res rest) (hdest : flagDest i = none)
      (haddr : storeAddress s i = none) : ExecEffect s i (s.raise (.illegalOpcode (encode i) (s.pc - 1)))

theorem ScannedFrom.refl (s : State) : ScannedFrom s s := ⟨s.kbdQueue, [], s.draws, by simp, List.suffix_refl _⟩

theorem trapRoutineOf_next (code : BitVec 8) (s : State) : ∃ t, trapRoutineOf code s = .next t := by
  unfold trapRoutineOf
  split
  case h_3 => exact (routinePuts_next s).imp fun _ => And.left
  case h_5 => exact (routinePutsp_next s).imp fun _ => And.left
  all_goals exact ⟨_, rfl⟩

theorem exec_decodeTrap_effect (code : BitVec 8) (s : State) :
    ∃ t, exec (decodeTrap code) s = .next t ∧ ExecEffect s (decodeTrap code) t := by
  obtain ⟨t, ht⟩ := trapRoutineOf_next code s.trapEntry
  exact ⟨t, (exec_decodeTrap code s).trans ht, .trap ht (.inl rfl) (flagDest_decodeTrap code)
    (storeAddress_decodeTrap s code) (writtenRegs_decodeTrap code)⟩

/-- Every instruction has a next state, and it is one of the six effects. -/
theorem exec_effect (i : Instr) (s : State) : ∃ t, exec i s = .next t ∧ ExecEffect s i t := by
  cases i
  case addReg | addImm | andReg | andImm | not | lea => exact ⟨_, rfl, .result _ (.refl s) rfl rfl rfl⟩
  case ld | ldr => exact ⟨_, rfl, .result _ (.of_memRead s _) rfl rfl rfl⟩
  case ldi dr off =>
    exact ⟨_, execLdi_eq dr off s, .result _ ((ScannedFrom.of_memRead s _).trans (.of_memRead _ _)) rfl rfl rfl⟩
  case st | str => exact ⟨_, rfl, .store _ (.refl s) rfl rfl⟩
  case sti sr off => exact ⟨_, execSti_eq sr off s, .store _ (.of_memRead s _) rfl rfl⟩
  case br nzp off => exact ⟨_, execBr_eq nzp off s, .jump _ rfl rfl⟩
  case jmp => exact ⟨_, rfl, .jump _ rfl rfl⟩
  case jsr | jsrr => exact ⟨_, rfl, .call _ rfl rfl rfl⟩
  case rti => exact ⟨_, rfl, .reserved (.inl rfl) rfl rfl⟩
  case res => exact ⟨_, rfl, .reserved (.inr rfl) rfl rfl⟩
  case trap code =>
    obtain ⟨t, ht⟩ := trapRoutineOf_next code s.trapEntry
    exact ⟨t, ht, .trap ht (.inr rfl) rfl rfl rfl⟩
  case getc => exact exec_decodeTrap_effect (Config.trapCode .getc) s
  case out => exact exec_decodeTrap_effect (Config.trapCode .out) s
  case puts => exact exec_decodeTrap_effect (Config.trapCode .puts) s
  case in_ => exact exec_decodeTrap_effect (Config.trapCode .inEcho) s
  case putsp => exact exec_decodeTrap_effect (Config.trapCode .putsp) s
  case halt => exact exec_decodeTrap_effect (Config.trapCode .halt) s

theorem ExecEffect.of_exec (h : exec i s = .next t) : ExecEffect s i t := by
  obtain ⟨u, hu, heffect⟩ := exec_effect i s
  exact Host.Outcome.next.inj (hu.symm.trans h) ▸ heffect

/-- Settles O48: each case of the step is a next state, and so is each instruction. -/
theorem everyStateHasANextState : Obligations.EveryStateHasANextState := by
  intro s
  by_cases hrun : s.run = .running
  · rcases hstop : s.stopRequested
    · rcases hwait : s.wait with _ | w
      · rw [step_of_fetch hrun hstop hwait]
        exact (exec_effect _ _).imp fun _ => And.left
      · exact ⟨_, step_of_wait hrun hstop hwait⟩
    · exact ⟨_, step_of_stopRequested hrun hstop⟩
  · exact ⟨_, step_of_not_running hrun⟩

/-! ## The frame of a TRAP routine -/

theorem ScannedFrom.x_eq (h : ScannedFrom s t) : t.x = s.x := by
  obtain ⟨_, _, _, rfl, -⟩ := h
  rfl

theorem ScannedFrom.cond_eq (h : ScannedFrom s t) : t.cond = s.cond := by
  obtain ⟨_, _, _, rfl, -⟩ := h
  rfl

theorem ScannedFrom.mem_eq (h : ScannedFrom s t) : t.mem = s.mem := by
  obtain ⟨_, _, _, rfl, -⟩ := h
  rfl

/-- A console input appends to the output and takes from the front of the queue. -/
theorem State.inputChar_console (s : State) (w : Wait) :
    s.out <+: (s.inputChar w).out ∧ (s.inputChar w).kbdQueue <:+ s.kbdQueue := by
  obtain ⟨-, hinput⟩ | ⟨c, rest, hqueue, hinput⟩ := s.inputChar_cases w <;> rw [hinput]
  · exact ⟨List.prefix_refl _, List.suffix_refl _⟩
  · exact ⟨List.prefix_append _ _, hqueue ▸ List.suffix_cons c rest⟩

theorem trapRoutineOf_cond_mem (h : trapRoutineOf code s = .next t) : t.cond = s.cond ∧ t.mem = s.mem := by
  obtain ⟨-, rfl⟩ | ⟨-, rfl⟩ | ⟨-, rfl⟩ | ⟨-, hscan⟩ | ⟨-, rfl⟩ | ⟨-, rfl⟩ := trapRoutineOf_cases h
  · obtain ⟨-, hcond, -, hmem, -⟩ := s.inputChar_frame .getc
    exact ⟨hcond, hmem⟩
  · obtain ⟨-, hcond, -, hmem, -⟩ := s.inputChar_frame .inEcho
    exact ⟨hcond, hmem⟩
  · exact ⟨rfl, rfl⟩
  · exact ⟨hscan.cond_eq, hscan.mem_eq⟩
  · exact ⟨rfl, rfl⟩
  · exact ⟨rfl, rfl⟩

theorem trapRoutineOf_console (h : trapRoutineOf code s = .next t) : s.out <+: t.out ∧ t.kbdQueue <:+ s.kbdQueue := by
  obtain ⟨-, rfl⟩ | ⟨-, rfl⟩ | ⟨-, rfl⟩ | ⟨-, hscan⟩ | ⟨-, rfl⟩ | ⟨-, rfl⟩ := trapRoutineOf_cases h
  · exact s.inputChar_console .getc
  · exact s.inputChar_console .inEcho
  · exact ⟨List.prefix_append _ _, List.suffix_refl _⟩
  · exact ⟨hscan.out_prefix, hscan.kbdQueue_suffix⟩
  · exact ⟨List.prefix_append _ _, List.suffix_refl _⟩
  · exact ⟨List.prefix_refl _, List.suffix_refl _⟩

/-- Only GETC and IN write a register of their own (R163, R166). -/
theorem trapRoutineOf_regs (h : trapRoutineOf code s = .next t) : SameRegsBut s t (writtenRegs (.trap code)) := by
  intro r hr
  obtain ⟨hcode, rfl⟩ | ⟨hcode, rfl⟩ | ⟨-, rfl⟩ | ⟨-, hscan⟩ | ⟨-, rfl⟩ | ⟨-, rfl⟩ := trapRoutineOf_cases h
  · obtain ⟨-, -, -, -, -, hregs⟩ := s.inputChar_frame .getc
    obtain rfl := trapCode_of_trapRoutine hcode
    exact hregs r (by rintro rfl; exact hr (by decide))
  · obtain ⟨-, -, -, -, -, hregs⟩ := s.inputChar_frame .inEcho
    obtain rfl := trapCode_of_trapRoutine hcode
    exact hregs r (by rintro rfl; exact hr (by decide))
  · rfl
  · exact State.readReg_congr hscan.x_eq r
  · rfl
  · rfl

theorem seven_mem_writtenRegs_trap (code : BitVec 8) : 7 ∈ writtenRegs (.trap code) := by
  unfold writtenRegs
  dsimp only
  split <;> decide

/-! ## Frames over all instructions -/

/-- Settles O9: a result write sets `cond` from the result, and no other effect touches it. -/
theorem onlyTheListedInstructionsWriteCond : Obligations.OnlyTheListedInstructionsWriteCond := by
  intro i s t h
  cases ExecEffect.of_exec h with
  | result v _ hdest =>
    rw [hdest]
    dsimp only
    rw [State.readReg_writeResult_self]
    exact condFollows_condOf v
  | store _ hread hdest => rw [hdest]; exact hread.cond_eq
  | jump _ hdest => rw [hdest]; rfl
  | call _ hdest => rw [hdest]; rfl
  | trap hroutine _ hdest => rw [hdest]; exact (trapRoutineOf_cond_mem hroutine).1
  | reserved _ hdest => rw [hdest]; rfl

/-- Settles O22: a store writes the one cell, and no other effect writes memory. -/
theorem onlyStoresWriteMemory : Obligations.OnlyStoresWriteMemory := by
  intro i s t h
  cases ExecEffect.of_exec h with
  | result _ hread _ haddr => rw [haddr]; exact State.cell_congr hread.mem_eq
  | store _ hread _ haddr =>
    rw [haddr]
    exact fun a ha => (State.cell_memWrite_ne _ _ ha).trans (State.cell_congr hread.mem_eq a)
  | jump _ _ haddr => rw [haddr]; exact fun _ => rfl
  | call _ _ haddr => rw [haddr]; exact fun _ => rfl
  | trap hroutine _ _ haddr =>
    rw [haddr]
    exact State.cell_congr (trapRoutineOf_cond_mem (s := s.trapEntry) hroutine).2
  | reserved _ _ haddr => rw [haddr]; exact fun _ => rfl

/-- Settles O31: the register each effect writes is in the instruction's row. -/
theorem onlyTableRegistersAreWritten : Obligations.OnlyTableRegistersAreWritten := by
  intro i s t h r hr
  cases ExecEffect.of_exec h with
  | result v hread _ _ hregs =>
    rw [hregs] at hr
    rw [State.readReg_writeResult_ne _ v (List.ne_of_not_mem_cons hr), State.readReg_congr hread.x_eq]
  | store _ hread => exact State.readReg_congr hread.x_eq r
  | jump => rfl
  | call _ _ _ hregs =>
    rw [hregs] at hr
    exact s.readReg_link_ne (List.ne_of_not_mem_cons hr)
  | trap hroutine _ _ _ hregs =>
    rw [hregs] at hr
    have hne : r ≠ 7 := fun h7 => hr (h7 ▸ seven_mem_writtenRegs_trap _)
    exact (trapRoutineOf_regs hroutine r hr).trans (s.readReg_trapEntry_ne hne)
  | reserved => rfl

theorem ExecEffect.console (h : ExecEffect s i t) : s.out <+: t.out ∧ t.kbdQueue <:+ s.kbdQueue := by
  cases h with
  | result _ hread => exact ⟨hread.out_prefix, hread.kbdQueue_suffix⟩
  | store _ hread => exact ⟨hread.out_prefix, hread.kbdQueue_suffix⟩
  | jump | call | reserved => exact ⟨List.prefix_refl _, List.suffix_refl _⟩
  | trap hroutine => exact trapRoutineOf_console (s := s.trapEntry) hroutine

theorem State.deliver_kbdQueue (s : State) : s.deliver.kbdQueue = s.kbdQueue ++ s.env.head?.elim [] EnvMove.keys := by
  rcases henv : s.env with _ | ⟨e, rest⟩
  · simp [State.deliver_nil henv]
  · simp [State.deliver_cons henv]

theorem State.fetch_kbdQueue_suffix (s : State) : s.fetch.2.kbdQueue <:+ s.kbdQueue := by
  rw [fetch_state]
  exact s.memRead_queue_suffix s.pc

/-- Settles O41: the queue after a step is what is left of the queue after the delivery. -/
theorem consoleIsAppendOnlyAndFirstInFirstOut : Obligations.ConsoleIsAppendOnlyAndFirstInFirstOut := by
  refine ⟨fun i s t h => (ExecEffect.of_exec h).console, fun s t hrun h => ?_⟩
  rw [← s.deliver_kbdQueue, ← s.deliver_out]
  obtain ⟨hterminal, -⟩ | ⟨-, -, rfl⟩ | ⟨w, -, -, -, rfl⟩ | ⟨-, -, -, hexec⟩ := step_next_cases h
  · exact absurd hrun hterminal
  · exact ⟨List.prefix_refl _, List.suffix_refl _⟩
  · exact s.deliver.inputChar_console w
  · obtain ⟨hout, hqueue⟩ := (ExecEffect.of_exec hexec).console
    exact ⟨s.deliver.fetch_out ▸ hout, hqueue.trans s.deliver.fetch_kbdQueue_suffix⟩

end Sys2Proof.Machine
end

section
/-! The run state (spec/10_state.md R30; spec/40_execution_cycle.md R110 to R113; spec/60_exceptions.md R201): how an
instruction ends a run, and the invariant that every step keeps. -/

namespace Sys2Proof.Machine

variable {s t : State} {i : Instr} {code : BitVec 8}

/-! ## How a run ends -/

/-- A TRAP changes the run state by HALT or by an unknown code only (R168, R169). -/
theorem trapRoutineOf_run (h : trapRoutineOf code s = .next t) :
    t.run = s.run ∨ (Config.trapRoutine code = some .halt ∧ t.run = .halted) ∨
      (Config.trapRoutine code = none ∧ t.run = .faulted (.illegalTrap code (s.pc - 1))) := by
  obtain ⟨-, rfl⟩ | ⟨-, rfl⟩ | ⟨-, rfl⟩ | ⟨-, hscan⟩ | ⟨hcode, rfl⟩ | ⟨hcode, rfl⟩ := trapRoutineOf_cases h
  · obtain ⟨-, -, hrun, -⟩ := s.inputChar_frame .getc
    exact .inl hrun
  · obtain ⟨-, -, hrun, -⟩ := s.inputChar_frame .inEcho
    exact .inl hrun
  · exact .inl rfl
  · exact .inl hscan.run_eq
  · exact .inr (.inl ⟨hcode, rfl⟩)
  · exact .inr (.inr ⟨hcode, rfl⟩)

/-- The decoder gives the generic TRAP to unknown codes only, so a decoded TRAP is the one of its code. -/
theorem decode_eq_decodeTrap {w : Word} (h : decode w = decodeTrap code ∨ decode w = .trap code) :
    decode w = decodeTrap code := by
  obtain h | h := h
  · exact h
  · have hwf := decode_wellFormed w
    rw [h, Instr.wellFormed, Option.isNone_iff_eq_none] at hwf
    rw [h, decodeTrap_of_unknown hwf]

/-- How an instruction out of a Word changes the run state (R111). -/
theorem exec_decode_run {w : Word} (h : exec (decode w) s = .next t) :
    t.run = s.run ∨
    (t.run = .halted ∧ decode w = .halt) ∨
    (∃ code, t.run = .faulted (.illegalTrap code (s.pc - 1)) ∧ decode w = .trap code) ∨
    (∃ rest, t.run = .faulted (.illegalOpcode w (s.pc - 1)) ∧ (decode w = .rti rest ∨ decode w = .res rest)) := by
  cases ExecEffect.of_exec h with
  | result _ hread | store _ hread => exact .inl hread.run_eq
  | jump | call => exact .inl rfl
  | trap hroutine hi =>
    have hi := decode_eq_decodeTrap hi
    obtain hrun | ⟨hcode, hrun⟩ | ⟨hcode, hrun⟩ := trapRoutineOf_run hroutine
    · exact .inl hrun
    · exact .inr (.inl ⟨hrun, by rw [hi, decodeTrap, hcode]⟩)
    · exact .inr (.inr (.inl ⟨_, hrun, by rw [hi, decodeTrap_of_unknown hcode]⟩))
  | reserved hi =>
    have hop : Config.opcodeOf (field w 12 4) = .rti ∨ Config.opcodeOf (field w 12 4) = .res := by
      rw [← opcode_decode]
      exact hi.imp (congrArg Instr.opcode) (congrArg Instr.opcode)
    exact .inr (.inr (.inr ⟨_, by rw [State.raise_run, encode_decode_of_reserved hop], hi⟩))

/-- Settles O47: the stop, and the three ends of the fetched instruction. -/
theorem waysOutOfRunning : Obligations.WaysOutOfRunning := by
  intro s t hrun h hout
  obtain ⟨hterminal, -⟩ | ⟨-, hstop, rfl⟩ | ⟨w, -, -, -, rfl⟩ | ⟨-, hstop, hwait, hexec⟩ := step_next_cases h
  · exact absurd hrun hterminal
  · exact .inl ⟨rfl, hstop⟩
  · obtain ⟨-, -, hkept, -⟩ := s.deliver.inputChar_frame w
    exact absurd (hkept.trans (s.deliver_run.trans hrun)) hout
  · refine .inr ⟨hstop, hwait, ?_⟩
    have hrun' : s.deliver.fetch.2.run = .running := by rw [State.fetch_run, s.deliver_run, hrun]
    have hends := exec_decode_run hexec
    rw [State.fetch_word, State.fetch_pc, s.deliver_pc, add_sub_cancel_right, hrun'] at hends
    obtain hkept | hhalt | htrap | ⟨rest, hfault, hreserved⟩ := hends
    · exact absurd hkept hout
    · exact .inl hhalt
    · exact .inr (.inl htrap)
    · exact .inr (.inr ⟨_, rest, hfault, rfl, hreserved⟩)

/-! ## The invariant -/

theorem ExecEffect.mem_wf (h : ExecEffect s i t) (hmem : s.mem.wf) : t.mem.wf := by
  cases h with
  | result v hread => exact hread.mem_eq.symm ▸ hmem
  | store v hread => exact State.memWrite_wf (hread.mem_eq.symm ▸ hmem) _ v
  | jump | call | reserved => exact hmem
  | trap hroutine => exact (trapRoutineOf_cond_mem (s := s.trapEntry) hroutine).2.symm ▸ hmem

/-- A state that runs and waits for nothing owes the canonical form only. -/
theorem State.Inv.of_running (hmem : t.mem.wf) (hrun : t.run = .running) (hwait : t.wait = none) : t.Inv :=
  ⟨hmem, by rw [runConsistent, hrun]; trivial, fun h => absurd hwait h⟩

/-- A console input from a running state that has linked keeps the invariant, whether it waits or completes (R162). -/
theorem State.Inv.inputChar (hmem : s.mem.wf) (hrun : s.run = .running) (hlink : s.readReg 7 = s.pc) (w : Wait) :
    (s.inputChar w).Inv := by
  obtain ⟨hqueue, hinput⟩ | ⟨c, rest, -, hinput⟩ := s.inputChar_cases w <;> rw [hinput]
  · exact ⟨hmem, by rw [runConsistent, hrun]; trivial, fun _ => ⟨hrun, hqueue, hlink⟩⟩
  · exact .of_running hmem hrun rfl

/-- A TRAP routine, entered from a running state that waits for nothing, leaves the invariant. -/
theorem trapRoutineOf_inv (h : trapRoutineOf code s = .next t) (hmem : s.mem.wf) (hrun : s.run = .running)
    (hwait : s.wait = none) (hlink : s.readReg 7 = s.pc) : t.Inv := by
  obtain ⟨-, rfl⟩ | ⟨-, rfl⟩ | ⟨-, rfl⟩ | ⟨-, hscan⟩ | ⟨-, rfl⟩ | ⟨hcode, rfl⟩ := trapRoutineOf_cases h
  · exact .inputChar hmem hrun hlink .getc
  · exact .inputChar hmem hrun hlink .inEcho
  · exact .of_running hmem hrun hwait
  · exact .of_running (hscan.mem_eq.symm ▸ hmem) (hscan.run_eq.trans hrun) (hscan.wait_eq.trans hwait)
  · exact ⟨hmem, ⟨hlink, List.suffix_append _ _⟩, fun hne => absurd hwait hne⟩
  · exact ⟨hmem, ⟨rfl, hlink, hcode⟩, fun hne => absurd hwait hne⟩

theorem ExecEffect.inv (h : ExecEffect s i t) (hmem : s.mem.wf) (hrun : s.run = .running) (hwait : s.wait = none) :
    t.Inv := by
  have hmem' := h.mem_wf hmem
  cases h with
  | result v hread | store v hread => exact .of_running hmem' (hread.run_eq.trans hrun) (hread.wait_eq.trans hwait)
  | jump | call => exact .of_running hmem' hrun hwait
  | trap hroutine => exact trapRoutineOf_inv hroutine hmem hrun hwait s.readReg_trapEntry_seven
  | reserved hi =>
    have hop := opcodeOf_encode i
    refine ⟨hmem', ⟨rfl, ?_⟩, fun hne => absurd hwait hne⟩
    obtain rfl | rfl := hi
    · exact .inl hop
    · exact .inr hop

/-- Settles O49: each case of the step keeps the invariant or makes it anew. -/
theorem stepKeepsTheInvariant : Obligations.StepKeepsTheInvariant := by
  intro s t hinv h
  have hmem : s.deliver.mem.wf := s.deliver_mem.symm ▸ hinv.memory
  obtain ⟨-, rfl⟩ | ⟨-, -, rfl⟩ | ⟨w, hrun, -, hwait, rfl⟩ | ⟨hrun, -, hwait, hexec⟩ := step_next_cases h
  · exact hinv
  · exact ⟨hmem, trivial, fun hne => absurd rfl hne⟩
  · obtain ⟨-, -, hlink⟩ := hinv.wait (by simp [hwait])
    have hlink' : s.deliver.readReg 7 = s.deliver.pc := by
      rw [State.readReg_congr s.deliver_x, s.deliver_pc, hlink]
    exact .inputChar hmem (s.deliver_run.trans hrun) hlink' w
  · exact (ExecEffect.of_exec hexec).inv (by rwa [State.fetch_mem]) (by rw [State.fetch_run, s.deliver_run, hrun])
      (by rw [State.fetch_wait, s.deliver_wait, hwait])

/-- Settles O50: a reset machine runs, waits for nothing and lists no cell. -/
theorem resetHasTheInvariant : Obligations.ResetHasTheInvariant := .of_running State.reset_mem_wf rfl rfl

end Sys2Proof.Machine
end

section
/-! The device cells (spec/20_memory.md R54): states alike but for the cells behind the two device addresses stay so in
every step. Most operations neither read nor write memory (`MemBlind`); a read finds the same Word in both states,
because it returns no device cell, and a store writes the same cell of both. -/

namespace Sys2Proof.Machine

variable {s t : State}

/-! ## The operations -/

/-- `s` with the memory `m`. -/
def State.withMem (s : State) (m : Memory) : State := { s with mem := m }

/-- An operation that neither reads nor writes memory. -/
def MemBlind (f : State → State) : Prop := ∀ s m, f (s.withMem m) = (f s).withMem m

theorem AgreeOffDevices.eq_withMem (h : AgreeOffDevices s t) : t = s.withMem t.mem := by
  obtain ⟨hx, hpc, hcond, hrun, hqueue, hout, hwait, henv, hdraws, -⟩ := h
  rw [State.withMem, hx, hpc, hcond, hrun, hqueue, hout, hwait, henv, hdraws]

theorem MemBlind.mem_eq {f : State → State} (hf : MemBlind f) (s : State) : (f s).mem = s.mem := by
  have hself := congrArg State.mem (hf s s.mem)
  exact hself

/-- An operation that neither reads nor writes memory keeps states alike. -/
theorem AgreeOffDevices.map {f : State → State} (h : AgreeOffDevices s t) (hf : MemBlind f) :
    AgreeOffDevices (f s) (f t) := by
  rw [h.eq_withMem, hf]
  exact ⟨rfl, rfl, rfl, rfl, rfl, rfl, rfl, rfl, rfl,
    fun a h₁ h₂ => (State.cell_congr (hf.mem_eq s) a).trans (h.cells a h₁ h₂)⟩

theorem memBlind_inputChar (w : Wait) : MemBlind (State.inputChar · w) := fun s m => by
  dsimp only
  rcases hqueue : s.kbdQueue with _ | ⟨c, rest⟩
  · rw [State.inputChar_nil w hqueue, State.inputChar_nil (s := s.withMem m) w hqueue]
    rfl
  · rw [State.inputChar_of_cons w hqueue, State.inputChar_of_cons (s := s.withMem m) w hqueue]
    rfl

theorem memBlind_deliver : MemBlind State.deliver := fun s m => by
  rcases henv : s.env with _ | ⟨e, rest⟩
  · rw [State.deliver_nil henv, State.deliver_nil (s := s.withMem m) henv]
  · rw [State.deliver_cons henv, State.deliver_cons (s := s.withMem m) henv]
    rfl

theorem AgreeOffDevices.readReg (h : AgreeOffDevices s t) (r : Reg) : s.readReg r = t.readReg r :=
  State.readReg_congr h.x r

/-- A read of alike states returns the same Word and leaves them alike. -/
theorem AgreeOffDevices.memRead (h : AgreeOffDevices s t) (a : Word) :
    (s.memRead a).1 = (t.memRead a).1 ∧ AgreeOffDevices (s.memRead a).2 (t.memRead a).2 := by
  by_cases hstatus : a = Config.kbsrAddr
  · subst hstatus
    rw [s.memRead_status, t.memRead_status, s.readStatus_eq, t.readStatus_eq, h.kbdQueue]
    exact ⟨rfl, h⟩
  by_cases hdata : a = Config.kbdrAddr
  · subst hdata
    rw [s.memRead_data, t.memRead_data]
    rcases hqueue : t.kbdQueue with _ | ⟨c, rest⟩
    · rw [State.readData_nil hqueue, State.readData_nil (h.kbdQueue.trans hqueue), h.draws]
      exact ⟨rfl, h.map (f := fun u => { u with draws := t.draws + 1 }) fun _ _ => rfl⟩
    · rw [State.readData_cons hqueue, State.readData_cons (h.kbdQueue.trans hqueue)]
      exact ⟨rfl, h.map (f := fun u => { u with kbdQueue := rest }) fun _ _ => rfl⟩
  · rw [s.memRead_plain hstatus hdata, t.memRead_plain hstatus hdata]
    exact ⟨h.cells a hstatus hdata, h⟩

theorem AgreeOffDevices.memWrite (h : AgreeOffDevices s t) (a v : Word) :
    AgreeOffDevices (s.memWrite a v) (t.memWrite a v) := by
  obtain ⟨hx, hpc, hcond, hrun, hqueue, hout, hwait, henv, hdraws, hcells⟩ := h
  refine ⟨hx, hpc, hcond, hrun, hqueue, hout, hwait, henv, hdraws, fun b h₁ h₂ => ?_⟩
  rw [s.cell_memWrite, t.cell_memWrite, hcells b h₁ h₂]

theorem AgreeOffDevices.load (h : AgreeOffDevices s t) (dr : Reg) (ea : Word) :
    AgreeOffDevices (s.load dr ea) (t.load dr ea) := by
  obtain ⟨hword, hread⟩ := h.memRead ea
  rw [State.load_eq, State.load_eq, hword]
  exact hread.map (f := (State.writeResult · dr _)) fun _ _ => rfl

theorem AgreeOffDevices.pcRelative {n : Nat} (h : AgreeOffDevices s t) (offset : BitVec n) :
    s.pcRelative offset = t.pcRelative offset :=
  congrArg (· + sext16 offset) h.pc

theorem AgreeOffDevices.baseOffset (h : AgreeOffDevices s t) (base : Reg) (offset : BitVec 6) :
    s.baseOffset base offset = t.baseOffset base offset :=
  congrArg (· + sext16 offset) (h.readReg base)

theorem AgreeOffDevices.indirect (h : AgreeOffDevices s t) (offset : BitVec 9) :
    (s.indirect offset).1 = (t.indirect offset).1 ∧ AgreeOffDevices (s.indirect offset).2 (t.indirect offset).2 := by
  rw [State.indirect, State.indirect, ← h.pcRelative]
  exact h.memRead _

theorem AgreeOffDevices.fetch (h : AgreeOffDevices s t) :
    s.fetch.1 = t.fetch.1 ∧ AgreeOffDevices s.fetch.2 t.fetch.2 := by
  obtain ⟨hword, hread⟩ := h.memRead s.pc
  rw [State.fetch_word, State.fetch_word, State.fetch_state, State.fetch_state, ← h.pc]
  exact ⟨hword, hread.map (f := (State.setPc · (s.pc + 1))) fun _ _ => rfl⟩

/-! ## The string scans -/

/-- Scans of alike states both end, alike, or both go on. -/
def AlikeScans : Option State → Option State → Prop
  | some s, some t => AgreeOffDevices s t
  | none, none => True
  | _, _ => False

theorem AgreeOffDevices.consoleWrite (h : AgreeOffDevices s t) (bs : List Byte) :
    AgreeOffDevices (s.consoleWrite bs) (t.consoleWrite bs) :=
  h.map (f := (State.consoleWrite · bs)) fun _ _ => rfl

theorem AgreeOffDevices.putsScan (n : Nat) (a : Word) (h : AgreeOffDevices s t) :
    AlikeScans (putsScan n a s) (putsScan n a t) := by
  induction n generalizing a s t with
  | zero => trivial
  | succ n ih =>
    obtain ⟨hword, hread⟩ := h.memRead a
    rw [putsScan_succ, putsScan_succ, hword]
    split
    · exact hread
    · exact ih (a + 1) (hread.consoleWrite _)

theorem AgreeOffDevices.putspScan (n : Nat) (a : Word) (h : AgreeOffDevices s t) :
    AlikeScans (putspScan n a s) (putspScan n a t) := by
  induction n generalizing a s t with
  | zero => trivial
  | succ n ih =>
    obtain ⟨hword, hread⟩ := h.memRead a
    rw [putspScan_succ, putspScan_succ, hword]
    split
    · exact hread
    · split
      · exact hread.consoleWrite _
      · exact ih (a + 1) (hread.consoleWrite _)

theorem AlikeScans.scanResult {a b : Option State} (h : AlikeScans a b) :
    AlikeOutcomes (scanResult a) (scanResult b) := by
  match a, b, h with
  | some _, some _, h => exact h
  | none, none, _ => rfl

theorem AgreeOffDevices.scanBudget (h : AgreeOffDevices s t) : s.scanBudget = t.scanBudget := by
  rw [State.scanBudget, State.scanBudget, h.kbdQueue]

/-! ## The instructions -/

theorem AgreeOffDevices.trapRoutineOf (h : AgreeOffDevices s t) (code : BitVec 8) :
    AlikeOutcomes (trapRoutineOf code s) (trapRoutineOf code t) := by
  unfold Machine.trapRoutineOf
  split
  case h_1 => exact h.map (memBlind_inputChar .getc)
  case h_2 =>
    rw [routineOut, routineOut, h.readReg 0]
    exact h.consoleWrite _
  case h_3 =>
    rw [routinePuts, routinePuts, h.scanBudget, h.readReg 0]
    exact (h.putsScan _ _).scanResult
  case h_4 => exact h.map (memBlind_inputChar .inEcho)
  case h_5 =>
    rw [routinePutsp, routinePutsp, h.scanBudget, h.readReg 0]
    exact (h.putspScan _ _).scanResult
  case h_6 => exact h.map (f := fun u => { u.consoleWrite Config.haltNotice with run := .halted }) fun _ _ => rfl
  case h_7 => exact h.map (f := fun u => u.raise (.illegalTrap code u.instrAddr)) fun _ _ => rfl

theorem AgreeOffDevices.exec_decodeTrap (h : AgreeOffDevices s t) (code : BitVec 8) :
    AlikeOutcomes (exec (decodeTrap code) s) (exec (decodeTrap code) t) := by
  rw [Machine.exec_decodeTrap, Machine.exec_decodeTrap]
  exact (h.map (f := State.trapEntry) fun _ _ => rfl).trapRoutineOf code

theorem AgreeOffDevices.exec (i : Instr) (h : AgreeOffDevices s t) : AlikeOutcomes (exec i s) (exec i t) := by
  cases i
  case addReg dr sr1 sr2 =>
    exact h.map (f := fun u => u.writeResult dr (u.readReg sr1 + u.readReg sr2)) fun _ _ => rfl
  case addImm dr sr1 imm5 =>
    exact h.map (f := fun u => u.writeResult dr (u.readReg sr1 + sext16 imm5)) fun _ _ => rfl
  case andReg dr sr1 sr2 =>
    exact h.map (f := fun u => u.writeResult dr (u.readReg sr1 &&& u.readReg sr2)) fun _ _ => rfl
  case andImm dr sr1 imm5 =>
    exact h.map (f := fun u => u.writeResult dr (u.readReg sr1 &&& sext16 imm5)) fun _ _ => rfl
  case not dr sr => exact h.map (f := fun u => u.writeResult dr (~~~u.readReg sr)) fun _ _ => rfl
  case lea dr off => exact h.map (f := fun u => u.writeResult dr (u.pcRelative off)) fun _ _ => rfl
  case br nzp off =>
    rw [Machine.exec, Machine.exec, execBr_eq, execBr_eq]
    exact h.map (f := fun u => u.setPc (if nzp &&& u.cond.mask ≠ 0 then u.pcRelative off else u.pc)) fun _ _ => rfl
  case jmp base => exact h.map (f := fun u => u.setPc (u.readReg base)) fun _ _ => rfl
  case jsr off => exact h.map (f := fun u => u.link.setPc (u.pcRelative off)) fun _ _ => rfl
  case jsrr base => exact h.map (f := fun u => u.link.setPc (u.link.readReg base)) fun _ _ => rfl
  case rti rest => exact h.map (f := fun u => u.reservedOpcode (encode (.rti rest))) fun _ _ => rfl
  case res rest => exact h.map (f := fun u => u.reservedOpcode (encode (.res rest))) fun _ _ => rfl
  case ld dr off =>
    rw [Machine.exec, Machine.exec, execLd, execLd, h.pcRelative]
    exact h.load dr _
  case ldr dr base off =>
    rw [Machine.exec, Machine.exec, execLdr, execLdr, h.baseOffset]
    exact h.load dr _
  case ldi dr off =>
    obtain ⟨hword, hread⟩ := h.indirect off
    rw [Machine.exec, Machine.exec, execLdi_eq, execLdi_eq, hword]
    exact hread.load dr _
  case st sr off =>
    rw [Machine.exec, Machine.exec, execSt, execSt, h.pcRelative, h.readReg]
    exact h.memWrite _ _
  case str sr base off =>
    rw [Machine.exec, Machine.exec, execStr, execStr, h.baseOffset, h.readReg]
    exact h.memWrite _ _
  case sti sr off =>
    obtain ⟨hword, hread⟩ := h.indirect off
    rw [Machine.exec, Machine.exec, execSti_eq, execSti_eq, hword, hread.readReg]
    exact hread.memWrite _ _
  case trap code => exact (h.map (f := State.trapEntry) fun _ _ => rfl).trapRoutineOf code
  case getc => exact h.exec_decodeTrap (Config.trapCode .getc)
  case out => exact h.exec_decodeTrap (Config.trapCode .out)
  case puts => exact h.exec_decodeTrap (Config.trapCode .puts)
  case in_ => exact h.exec_decodeTrap (Config.trapCode .inEcho)
  case putsp => exact h.exec_decodeTrap (Config.trapCode .putsp)
  case halt => exact h.exec_decodeTrap (Config.trapCode .halt)

theorem AgreeOffDevices.stopRequested (h : AgreeOffDevices s t) : s.stopRequested = t.stopRequested := by
  rw [State.stopRequested, State.stopRequested, h.env]

/-- Settles O23: every case of the step is made of operations that keep states alike. -/
theorem deviceCellsAreInvisible : Obligations.DeviceCellsAreInvisible := by
  intro s t h
  have hdeliver := h.map memBlind_deliver
  by_cases hrun : s.run = .running
  · have hrun' : t.run = .running := h.run ▸ hrun
    rcases hstop : s.stopRequested
    · have hstop' : t.stopRequested = false := h.stopRequested ▸ hstop
      rcases hwait : s.wait with _ | w
      · obtain ⟨hword, hfetch⟩ := hdeliver.fetch
        rw [step_of_fetch hrun hstop hwait, step_of_fetch hrun' hstop' (h.wait ▸ hwait), hword]
        exact hfetch.exec _
      · rw [step_of_wait hrun hstop hwait, step_of_wait hrun' hstop' (h.wait ▸ hwait)]
        exact hdeliver.map (memBlind_inputChar w)
    · rw [step_of_stopRequested hrun hstop, step_of_stopRequested hrun' (h.stopRequested ▸ hstop)]
      exact hdeliver.map (f := State.stopCore) fun _ _ => rfl
  · rw [step_of_not_running hrun, step_of_not_running (h.run ▸ hrun)]
    exact h

end Sys2Proof.Machine
end

section
/-! The branch test by the three conditions (spec/10_state.md R25, R26; spec/42_control.md R130). -/

namespace Sys2Proof.Machine

/-- Each bit of BR's mask selects one condition (R25, R130). -/
theorem nzp_and_mask_ne_zero (c : Cond) (n z p : Bool) :
    (BitVec.ofBool n ++ BitVec.ofBool z ++ BitVec.ofBool p) &&& c.mask ≠ 0 ↔
      (n = true ∧ c = .negative) ∨ (z = true ∧ c = .zero) ∨ (p = true ∧ c = .positive) := by
  revert n z p
  cases c <;> decide

/-- Settles O8: the test sees `cond` alone, so the three conditions and the eight masks are all there is. -/
theorem conditionMasksAreOneHot : Obligations.ConditionMasksAreOneHot :=
  ⟨rfl, rfl, rfl, fun s n z p => (s.branchTaken_iff _).trans (nzp_and_mask_ne_zero s.cond n z p)⟩

end Sys2Proof.Machine
end

section
/-! Image load (spec/70_reset_and_hazards.md R233 to R237): the streams that are refused, and the cells after one and
after two loaded images. -/

namespace Sys2Proof.Machine

/-! ## Streams that are refused (R235, R237) -/

/-- An odd number of Bytes has no Words. -/
theorem bigEndianWords_of_odd {stream : List Byte} (h : stream.length % 2 = 1) : bigEndianWords stream = none := by
  induction stream using bigEndianWords.induct with
  | case1 => simp at h
  | case2 => rfl
  | case3 hi lo rest ih =>
    have hrest : rest.length % 2 = 1 := (Nat.add_mod_right rest.length 2).symm.trans h
    rw [bigEndianWords, ih hrest, Option.map_none]

theorem State.loadImage_of_short (s : State) {stream : List Byte} (h : stream.length < 2) :
    s.loadImage stream = .refused .imageWithoutOrigin := by
  match stream, h with
  | [], _ => rfl
  | [_], _ => rfl

theorem State.loadImage_of_odd (s : State) {stream : List Byte} (hlen : 2 ≤ stream.length)
    (hodd : stream.length % 2 = 1) : s.loadImage stream = .refused .imageOddLength := by
  match stream, hlen with
  | hi :: lo :: rest, _ => rw [loadImage, bigEndianWords_of_odd hodd]

/-- Settles O53: the length of the stream decides the first two refusals, and its Words the third. -/
theorem uncoveredImagesAreRefused : Obligations.UncoveredImagesAreRefused := by
  refine fun s => ⟨fun _ => s.loadImage_of_short, fun _ => s.loadImage_of_odd, fun origin ws hpast => ?_⟩
  rw [s.loadImage_imageStream, s.placeImage_of_not_fits (Nat.not_le.mpr hpast)]

/-! ## Loaded cells (R233, R236) -/

theorem State.loadImage_of_fits (s : State) {origin : Word} {ws : List Word} (h : origin.toNat + ws.length ≤ 65536) :
    s.loadImage (imageStream origin ws) = .next (s.placeWords origin ws) := by
  rw [s.loadImage_imageStream, s.placeImage_of_fits h]

/-- A cell after an image that fits is placed, in one equation. -/
theorem State.cell_placeWords (s : State) {origin : Word} {ws : List Word} (hfits : origin.toNat + ws.length ≤ 65536)
    (a : Word) :
    (s.placeWords origin ws).cell a =
      if h : origin.toNat ≤ a.toNat ∧ a.toNat - origin.toNat < ws.length then ws[a.toNat - origin.toNat]'h.2
      else s.cell a := by
  split
  next h =>
    have ha : a = origin + BitVec.ofNat 16 (a.toNat - origin.toNat) := by bv_omega
    have hcell := s.cell_placeWords_getElem origin (by omega) h.2
    rwa [← ha] at hcell
  next h => exact s.cell_placeWords_of_ne origin ws fun i hi => by bv_omega

/-- Settles O54: the second image's Words are placed over the first's. -/
theorem laterImageWins : Obligations.LaterImageWins := by
  intro s o₁ o₂ ws₁ ws₂ hfits₁ hfits₂
  have hload : s.loadImages [imageStream o₁ ws₁, imageStream o₂ ws₂] =
      .next ((s.placeWords o₁ ws₁).placeWords o₂ ws₂) := by
    rw [State.loadImages, s.loadImage_of_fits hfits₁]
    dsimp only
    rw [State.loadImages, State.loadImage_of_fits _ hfits₂]
    rfl
  refine ⟨_, hload, fun a => ?_⟩
  rw [State.cell_placeWords _ hfits₂, State.cell_placeWords _ hfits₁]

end Sys2Proof.Machine
end
